-- ==== Sys2Proof/Word.lean ====
section
/-! DEFINITION. The word types of the block, the privilege modes and the access widths (00_scope.md R15, R16; 20_memory.md R55). -/

namespace Sys2Proof

/-- A register byte. -/
abbrev Byte := BitVec 8

/-- A 32-bit control register. -/
abbrev Word := BitVec 32

/-- The data lanes of the widest access (8 bytes). -/
abbrev DWord := BitVec 64

/-- The privilege modes of R16; the code 2 is reserved and stands for no mode. -/
inductive Mode where
  | u
  | s
  | m
  deriving DecidableEq, Repr

/-- The 2-bit number of a mode (R16): U = 0, S = 1, M = 3. -/
def Mode.code : Mode → BitVec 2
  | .u => 0
  | .s => 1
  | .m => 3

/-- The mode with a 2-bit number, none for the reserved 2 (R16). -/
def Mode.ofCode (c : BitVec 2) : Option Mode :=
  if c = 0 then some .u else if c = 1 then some .s else if c = 3 then some .m else none

/-- Modes compare by their number (R16, R113): U < S < M. -/
def Mode.rank (a : Mode) : Nat := a.code.toNat

/-- The access widths of R55; there is no other. -/
inductive Width where
  | b
  | h
  | w
  | d
  deriving DecidableEq, Repr

/-- The number of bytes of an access (R55, R94). -/
def Width.bytes : Width → Nat
  | .b => 1
  | .h => 2
  | .w => 4
  | .d => 8

/-- The access width of a number of bytes, none where R55 names no such width. -/
def Width.ofBytes (n : Nat) : Option Width :=
  if n = 1 then some .b else if n = 2 then some .h
  else if n = 4 then some .w else if n = 8 then some .d else none

end Sys2Proof
end

