-- ==== Sys2Proof/Config.lean ====
section
/-! DEFINITION. The construction parameters (00_scope.md section 4) and the values the spec leaves open. -/

namespace Sys2Proof

/-- The two constructible versions (R9). No rule depends on the choice (R9, R238). -/
inductive Version where
  | v09
  | v09jmp
  deriving DecidableEq, Repr

/-- The parameter record `P` (R7 to R12, U16), fixed by `CREATE` and unchanged by every other operation. `hart_id`, `version`,
`shv_enabled` and `jump_table` are stored and read by nothing (R238).
Addresses and the hart number are naturals: the spec gives them no width (DESIGN CHOICE, entry 17). -/
structure Params where
  numSources : Nat
  ctlbits    : Nat
  version    : Version
  mclicbase  : Nat
  sclicbase  : Nat
  uclicbase  : Nat
  hartId     : Nat
  shvEnabled : Bool
  jumpTable  : Bool
  deriving DecidableEq, Repr

/-- The value `exccode` holds after the n-th `CREATE` or `RESET` and before the first post: any value
(93_implementation_defined.md U3). A free value (entry 5): nothing constrains it. -/
opaque Config.exccodeAtReset : Nat → BitVec 22

/-- The value of `shv_enabled` that the n-th `CREATE` stores: any value, because `CREATE` stores it (R238) and no argument gives
it (R12). A free value (entry 18). -/
opaque Config.shvEnabledAtCreate : Nat → Bool

/-- The value of `jump_table` that the n-th `CREATE` stores: any value, for the same reason (R12, R238; entry 18). -/
opaque Config.jumpTableAtCreate : Nat → Bool

end Sys2Proof
end

