-- ==== Sys2Proof/Syntax.lean ====
section
/-! DEFINITION. The operations: the raw tuples of 30_encoding.md R80, and `Instr`, one constructor for each row
of the operation table (R95). -/

namespace Sys2Proof

/-- The arguments of `CREATE` (R80, R235), as given: nothing about them is checked yet. -/
structure CreateArgs where
  mclicbase  : Nat
  sclicbase  : Nat
  uclicbase  : Nat
  hartId     : Nat
  numSources : Nat
  ctlbits    : Nat
  version    : String
  deriving DecidableEq, Repr

/-- An operation as its tuple (R80, R94): the spec gives no narrower encoding. The fields are plain numbers; the decoder
says which tuples are operations (entry 2, entry 20). -/
inductive RawOp where
  /-- `MMIO_READ(A, off, n)`: the view's mode number, the byte offset, the width in bytes. -/
  | read (view : BitVec 2) (off n : Nat)
  /-- `MMIO_WRITE(A, off, n, v)`. -/
  | write (view : BitVec 2) (off n v : Nat)
  /-- `LINE(i, L)`. -/
  | line (i level : Nat)
  /-- `ARBITRATE`, requested by the hart side. -/
  | arbitrate
  /-- `CPU_ACCEPT`. -/
  | cpuAccept
  /-- `CREATE(...)`. -/
  | create (a : CreateArgs)
  /-- `RESET`. -/
  | reset
  deriving DecidableEq, Repr

/-- The rows of spec/opcode_table.json (R95). `view` is the access mode of the view the access comes through. -/
inductive Instr where
  /-- RD.W cliccfg (R185). -/
  | rdCliccfg (view : Mode)
  /-- WR.W cliccfg (R186). -/
  | wrCliccfg (view : Mode) (v : Word)
  /-- RD.W clicinttrig[0..15] (R187), register `x`. -/
  | rdInttrigLo (view : Mode) (x : BitVec 4)
  /-- WR.W clicinttrig[0..15] (R188), register `x`. -/
  | wrInttrigLo (view : Mode) (x : BitVec 4) (v : Word)
  /-- RD.W clicinttrig[16..31] (R187), register `16 + x`. -/
  | rdInttrigHi (view : Mode) (x : BitVec 4)
  /-- WR.W clicinttrig[16..31] (R188), register `16 + x`. -/
  | wrInttrigHi (view : Mode) (x : BitVec 4) (v : Word)
  /-- RD.B clicintip[i] (R193). -/
  | rdIp (view : Mode) (i : Nat)
  /-- WR.B clicintip[i] (R194). -/
  | wrIp (view : Mode) (i : Nat) (v : Byte)
  /-- RD.B clicintie[i] (R195). -/
  | rdIe (view : Mode) (i : Nat)
  /-- WR.B clicintie[i] (R196). -/
  | wrIe (view : Mode) (i : Nat) (v : Byte)
  /-- RD.B clicintattr[i] (R197). -/
  | rdAttr (view : Mode) (i : Nat)
  /-- WR.B clicintattr[i] (R198). -/
  | wrAttr (view : Mode) (i : Nat) (v : Byte)
  /-- RD.B clicintctl[i] (R199). -/
  | rdCtl (view : Mode) (i : Nat)
  /-- WR.B clicintctl[i] (R200). -/
  | wrCtl (view : Mode) (i : Nat) (v : Byte)
  /-- RD.H/W/D of the per-IRQ region (R201), aligned. -/
  | rdWide (view : Mode) (off : Nat) (n : Width)
  /-- WR.H/W/D of the per-IRQ region (R202), aligned; `v` has `8n` bits. -/
  | wrWide (view : Mode) (off : Nat) (n : Width) (v : DWord)
  /-- LINE(i, L) (R150). -/
  | line (i : Nat) (level : Bool)
  /-- ARBITRATE (R210). -/
  | arb
  /-- CPU_ACCEPT (R234). -/
  | ack
  /-- CREATE (R235, R236). -/
  | create (a : CreateArgs)
  /-- RESET (R237). -/
  | reset
  deriving DecidableEq, Repr

/-- A bus access that no row of the table names and that the two bus operations define all the same (R180, R181, R184):
a control-region offset that starts no register, another width than 4 at a register's start, a misaligned access. -/
inductive Unlisted where
  | read (view : Mode) (off : Nat) (n : Width)
  | write (view : Mode) (off : Nat) (n : Width) (v : DWord)
  deriving DecidableEq, Repr

/-- Why a tuple is no operation (entry 20). -/
inductive DecodeError where
  /-- The view number is the reserved mode 2 (R16). -/
  | reservedView
  /-- The width is not 1, 2, 4 or 8 (R55). -/
  | noSuchWidth
  /-- The value of a write has more than `8n` bits (R80). -/
  | valueTooWide
  /-- The level of a line event is not 0 or 1 (R80). -/
  | noSuchLevel
  deriving DecidableEq, Repr

/-- What a tuple decodes to. -/
inductive Decoded where
  | instr (i : Instr)
  | unlisted (a : Unlisted)
  | rejected (r : DecodeError)
  deriving DecidableEq, Repr

end Sys2Proof
end

