-- ==== Sys2Proof/WellFormed.lean ====
section
/-! DEFINITION. Which terms of `Instr` stand for an operation of the table: the side conditions of the two multi-byte
rows (30_encoding.md R80, R93; 20_memory.md R54, R56). Every other constructor's fields have exactly their ranges. -/

namespace Sys2Proof

/-- The operands of a multi-byte access to the per-IRQ region: 2, 4 or 8 bytes, at or above 0x1000, naturally aligned. -/
def wideOk (off : Nat) (n : Width) : Bool :=
  n != .b && decide (0x1000 ≤ off) && decide (off % n.bytes = 0)

/-- Well-formed instructions. -/
def WellFormed : Instr → Bool
  | .rdCliccfg _ => true
  | .wrCliccfg _ _ => true
  | .rdInttrigLo _ _ => true
  | .wrInttrigLo _ _ _ => true
  | .rdInttrigHi _ _ => true
  | .wrInttrigHi _ _ _ => true
  | .rdIp _ _ => true
  | .wrIp _ _ _ => true
  | .rdIe _ _ => true
  | .wrIe _ _ _ => true
  | .rdAttr _ _ => true
  | .wrAttr _ _ _ => true
  | .rdCtl _ _ => true
  | .wrCtl _ _ _ => true
  | .rdWide _ off n => wideOk off n
  | .wrWide _ off n v => wideOk off n && decide (v.toNat < 2 ^ (8 * n.bytes))
  | .line _ _ => true
  | .arb => true
  | .ack => true
  | .create _ => true
  | .reset => true

end Sys2Proof
end

