-- ==== Sys2Proof/Decode.lean ====
section
/-! DEFINITION. The decoder of operation tuples, total, rejecting by name, and the encoder (30_encoding.md R80 to R83, R94,
R95). The spec's encoding of an operation is its tuple; the register decode is R81 and R82. -/

namespace Sys2Proof

/-- What a control-region offset selects (R82). -/
inductive CtrlReg where
  | cliccfg
  | inttrigLo (x : BitVec 4)
  | inttrigHi (x : BitVec 4)
  deriving DecidableEq, Repr

/-- The control registers decode by exact match of the start offset (R82); every other offset selects nothing (R189, R190). -/
def ctrlLookup (off : Nat) : Option CtrlReg :=
  if off = 0 then some .cliccfg
  else if 0x40 ≤ off ∧ off < 0x80 ∧ off % 4 = 0 then some (.inttrigLo (BitVec.ofNat 4 ((off - 0x40) / 4)))
  else if 0x80 ≤ off ∧ off < 0xC0 ∧ off % 4 = 0 then some (.inttrigHi (BitVec.ofNat 4 ((off - 0x80) / 4)))
  else none

/-- The IRQ number of a byte offset of the per-IRQ region (R81). -/
def irqOf (b : Nat) : Nat := (b - 0x1000) / 4

/-- The register selector of a byte offset: 0 ip, 1 ie, 2 attr, 3 ctl (R81). -/
def selOf (b : Nat) : Nat := b % 4

/-- The byte offset of register `r` of IRQ `i` (R81, R94). -/
def irqOff (i r : Nat) : Nat := 0x1000 + 4 * i + r

/-- The start offset of a control register (R82, R94). -/
def CtrlReg.offset : CtrlReg → Nat
  | .cliccfg => 0x0000
  | .inttrigLo x => 0x0040 + 4 * x.toNat
  | .inttrigHi x => 0x0080 + 4 * x.toNat

/-- A decoded read. -/
def decodeRead (A : Mode) (off : Nat) (n : Width) : Decoded :=
  if off < 0x1000 then
    if n = .w then
      match ctrlLookup off with
      | some .cliccfg => .instr (.rdCliccfg A)
      | some (.inttrigLo x) => .instr (.rdInttrigLo A x)
      | some (.inttrigHi x) => .instr (.rdInttrigHi A x)
      | none => .unlisted (.read A off n)
    else .unlisted (.read A off n)
  else if n = .b then
    if selOf off = 0 then .instr (.rdIp A (irqOf off))
    else if selOf off = 1 then .instr (.rdIe A (irqOf off))
    else if selOf off = 2 then .instr (.rdAttr A (irqOf off))
    else .instr (.rdCtl A (irqOf off))
  else if off % n.bytes = 0 then .instr (.rdWide A off n)
  else .unlisted (.read A off n)

/-- A decoded write; `v` is below `2^(8n)`. -/
def decodeWrite (A : Mode) (off : Nat) (n : Width) (v : Nat) : Decoded :=
  if off < 0x1000 then
    if n = .w then
      match ctrlLookup off with
      | some .cliccfg => .instr (.wrCliccfg A (BitVec.ofNat 32 v))
      | some (.inttrigLo x) => .instr (.wrInttrigLo A x (BitVec.ofNat 32 v))
      | some (.inttrigHi x) => .instr (.wrInttrigHi A x (BitVec.ofNat 32 v))
      | none => .unlisted (.write A off n (BitVec.ofNat 64 v))
    else .unlisted (.write A off n (BitVec.ofNat 64 v))
  else if n = .b then
    if selOf off = 0 then .instr (.wrIp A (irqOf off) (BitVec.ofNat 8 v))
    else if selOf off = 1 then .instr (.wrIe A (irqOf off) (BitVec.ofNat 8 v))
    else if selOf off = 2 then .instr (.wrAttr A (irqOf off) (BitVec.ofNat 8 v))
    else .instr (.wrCtl A (irqOf off) (BitVec.ofNat 8 v))
  else if off % n.bytes = 0 then .instr (.wrWide A off n (BitVec.ofNat 64 v))
  else .unlisted (.write A off n (BitVec.ofNat 64 v))

/-- The decoder: every tuple is an instruction of the table, an unlisted access, or rejected by name. -/
def decode : RawOp → Decoded
  | .read view off n =>
    match Mode.ofCode view, Width.ofBytes n with
    | none, _ => .rejected .reservedView
    | some _, none => .rejected .noSuchWidth
    | some A, some width => decodeRead A off width
  | .write view off n v =>
    match Mode.ofCode view, Width.ofBytes n with
    | none, _ => .rejected .reservedView
    | some _, none => .rejected .noSuchWidth
    | some A, some width => if v < 2 ^ (8 * width.bytes) then decodeWrite A off width v else .rejected .valueTooWide
  | .line i level =>
    if level = 0 then .instr (.line i false)
    else if level = 1 then .instr (.line i true)
    else .rejected .noSuchLevel
  | .arbitrate => .instr .arb
  | .cpuAccept => .instr .ack
  | .create a => .instr (.create a)
  | .reset => .instr .reset

/-- The encoder: the tuple of an instruction, written from the operation table (R80, R81, R82, R94). -/
def encode : Instr → RawOp
  | .rdCliccfg A => .read A.code 0x0000 4
  | .wrCliccfg A v => .write A.code 0x0000 4 v.toNat
  | .rdInttrigLo A x => .read A.code (CtrlReg.inttrigLo x).offset 4
  | .wrInttrigLo A x v => .write A.code (CtrlReg.inttrigLo x).offset 4 v.toNat
  | .rdInttrigHi A x => .read A.code (CtrlReg.inttrigHi x).offset 4
  | .wrInttrigHi A x v => .write A.code (CtrlReg.inttrigHi x).offset 4 v.toNat
  | .rdIp A i => .read A.code (irqOff i 0) 1
  | .wrIp A i v => .write A.code (irqOff i 0) 1 v.toNat
  | .rdIe A i => .read A.code (irqOff i 1) 1
  | .wrIe A i v => .write A.code (irqOff i 1) 1 v.toNat
  | .rdAttr A i => .read A.code (irqOff i 2) 1
  | .wrAttr A i v => .write A.code (irqOff i 2) 1 v.toNat
  | .rdCtl A i => .read A.code (irqOff i 3) 1
  | .wrCtl A i v => .write A.code (irqOff i 3) 1 v.toNat
  | .rdWide A off n => .read A.code off n.bytes
  | .wrWide A off n v => .write A.code off n.bytes v.toNat
  | .line i level => .line i level.toNat
  | .arb => .arbitrate
  | .ack => .cpuAccept
  | .create a => .create a
  | .reset => .reset

/-- The tuple a word of the operation table stands for (DESIGN CHOICE, entry 2). The table numbers bits of the byte offset
only: 12 bits inside the control region's range, or the 2 bits of the register selector inside the per-IRQ region's range,
which starts at 0x1000 (R95). The kind, the view, the width and the value have no bits there: the kind is taken as a read,
the view as M and the width as the row's format fixes it. -/
def tableOp (nbits w : Nat) : RawOp :=
  if nbits ≤ 8 then .read Mode.m.code (0x1000 + w) 1 else .read Mode.m.code w 4

/-- The instruction the decoder reads from a word of the operation table (entry 2). -/
def decodeTableWord (nbits w : Nat) : Option Instr :=
  match decode (tableOp nbits w) with
  | .instr i => some i
  | .unlisted _ => none
  | .rejected _ => none

end Sys2Proof
end

