-- ==== Sys2Proof/Machine/State.lean ====
section
/-! DEFINITION. The state of the machine as plain data, its reasons to stop, and its reset (10_state.md). -/

namespace Sys2Proof.Machine

/-- Why the machine stops with a fault. The block raises no run-time fault (60_exceptions.md R250). -/
inductive Fault where
  /-- Raised by `CREATE` on illegal arguments (R236, R256): "fatal, refuse to construct". Safe: the spec says no block exists. -/
  | badConfig
  deriving DecidableEq, Repr

/-- Why the machine refuses an operation: each is outside the domain the spec gives the step. -/
inductive Refusal where
  /-- The instruction of the table has no meaning yet. Raised by `exec` only. Safe. -/
  | notModelled (mnemonic : String)
  /-- A bus access through the view of an unsupported mode, which does not exist (R51; entry 9). Raised by the bus operations. Safe. -/
  | viewAbsent
  /-- `cpu.priv` is a mode the machine lacks (U20; entry 10). Raised by the operations that read `cpu.priv`. Safe. -/
  | privUnsupported
  /-- `LINE(i, L)` for a line that does not exist (R150; entry 11). Raised by `LINE`. Safe. -/
  | noSuchLine
  /-- An aligned access of another width than 4 at the start of a control register: the spec gives no meaning (R57, U6;
  entry 12). Raised by unlisted accesses. Safe. -/
  | controlWidth
  /-- The tuple is no operation (R16, R55, R80; entry 20). Raised by the step. Safe. -/
  | notAnOperation (r : DecodeError)
  /-- A bus address inside two views: the premise of R51 fails (entry 13). Raised by the step. Safe. -/
  | overlappingViews
  deriving DecidableEq, Repr

/-- The error kinds of an access that are logged (60_exceptions.md R251 to R254; entry 8). -/
inductive ErrorKind where
  | misalignedAccess
  | outOfRange
  | invalidIrq
  | privilegeDenied
  deriving DecidableEq, Repr

/-- The four registers of one IRQ (R20, R21): pending and enable are single bits held in bytes. -/
structure IrqRegs where
  ip   : Bool
  ie   : Bool
  attr : Byte
  ctl  : Byte
  deriving DecidableEq, Repr

/-- The registers of an IRQ after reset (R40). -/
def IrqRegs.reset : IrqRegs := { ip := false, ie := false, attr := 0xC0, ctl := 0x00 }

/-- The fields of `cliccfg` (R20, R27). -/
structure Cfg where
  mnlbits : BitVec 4
  snlbits : BitVec 4
  unlbits : BitVec 4
  nmbits  : BitVec 2
  deriving DecidableEq, Repr

/-- `cliccfg` after reset (R40). -/
def Cfg.reset : Cfg := { mnlbits := 0, snlbits := 0, unlbits := 0, nmbits := 0 }

/-- The architectural state of the block: the record `St` of R20. The per-IRQ file is kept as the list of the IRQs whose
registers differ from their reset values, in rising order (entry 21). -/
structure Block where
  irqs    : List (Nat × IrqRegs)
  cfg     : Cfg
  inttrig : Vector Word 32
  exccode : BitVec 22
  cpuLine : Bool
  deriving DecidableEq, Repr

/-- The reset state of R40; the value of `exccode` is an argument, as U3 asks. -/
def Block.reset (exccode : BitVec 22) : Block :=
  { irqs := [], cfg := Cfg.reset, inttrig := Vector.replicate 32 0, exccode := exccode, cpuLine := false }

/-- One 8-bit value for each mode (R17). -/
structure PerMode where
  u : Byte
  s : Byte
  m : Byte
  deriving DecidableEq, Repr

/-- The value of a mode. -/
def PerMode.get (t : PerMode) : Mode → Byte
  | .u => t.u
  | .s => t.s
  | .m => t.m

/-- The environment inputs (R17): not state of the block (R39), sampled once at the start of each operation. -/
structure Env where
  priv   : Mode
  xil    : PerMode
  thresh : PerMode
  deriving DecidableEq, Repr

/-- The start values of R94's notation (entry 6). -/
def Env.start : Env := { priv := .m, xil := ⟨0, 0, 0⟩, thresh := ⟨0, 0, 0⟩ }

/-- One thing the environment does to the block (R14, R300): an operation, or a bus access at a system address, which a
view turns into one (R231). -/
inductive Input where
  | op (o : RawOp)
  | busRead (addr n : Nat)
  | busWrite (addr n v : Nat)
  deriving DecidableEq, Repr

/-- An input with the environment record it samples (R17). -/
structure Request where
  env   : Env
  input : Input
  deriving DecidableEq, Repr

/-- What an operation gives back (R80, R300): nothing, read data of `8n` bits, or the value of `CPU_ACCEPT`. The data of a
narrower read stand in the low bits (entry 7). -/
inductive Result where
  | nothing
  | data (n : Width) (v : DWord)
  | accepted (v : BitVec 22)
  deriving DecidableEq, Repr

/-- The machine: the block's parameters and state, the environment record of the current operation, the operations still
to be performed, and what the last one gave back. -/
structure State where
  params    : Params
  blk       : Block
  env       : Env
  pending   : List Request
  result    : Result
  log       : List ErrorKind
  freeCount : Nat
  deriving DecidableEq, Repr

/-- The parameters the model's reset state holds: the configuration of the scenarios of D00 §8 as R235 gives it, with the
base address of 95_test_vectors.md V8 (DESIGN CHOICE, entry 4); `shv_enabled` and `jump_table` are false (DESIGN CHOICE, entry 18). -/
def Params.scenario : Params :=
  { numSources := 4096, ctlbits := 3, version := .v09, mclicbase := 0x02000000, sclicbase := 0, uclicbase := 0, hartId := 0,
    shvEnabled := false, jumpTable := false }

/-- The machine right after reset (R40, R280): the values of the table of R40; `exccode` is 0 (DESIGN CHOICE, entry 5), the
parameters and the environment record are those of entries 4 and 6, and nothing has been issued yet (entry 3). -/
def State.reset : State :=
  { params := Params.scenario, blk := Block.reset 0, env := Env.start, pending := [],
    result := .nothing, log := [], freeCount := 0 }

end Sys2Proof.Machine
end

