-- ==== Sys2Proof/Machine/Flags.lean ====
section
/-! DEFINITION. The bit-field codec and the flag computations (40_codec.md; 43_input.md R150; 10_state.md R37). Pure
functions of their arguments. -/

namespace Sys2Proof.Machine

/-- The `n` low bits of a byte set (R15). -/
def maskLow (n : Nat) : Byte := BitVec.ofNat 8 (2 ^ n - 1)

/-- The `n` high bits of a byte set (R15). -/
def maskHigh (n : Nat) : Byte := (0xFF : Byte) <<< (8 - n)

/-- The trigger types (R102). -/
inductive Trig where
  | posLevel
  | posEdge
  | negLevel
  | negEdge
  deriving DecidableEq, Repr

/-- The trigger type of the two `trig` bits (R102). -/
def trigOfBits (b : BitVec 2) : Trig :=
  if b = 0 then .posLevel else if b = 1 then .posEdge else if b = 2 then .negLevel else .negEdge

/-- The mode field of an attribute byte, bits 7:6 (R100). -/
def attrMode (a : Byte) : BitVec 2 := a.extractLsb' 6 2

/-- The trigger type of an attribute byte, bits 2:1 (R100, R102). -/
def attrTrig (a : Byte) : Trig := trigOfBits (a.extractLsb' 1 2)

/-- The `shv` bit of an attribute byte, bit 0 (R100). -/
def attrShv (a : Byte) : Bool := a.getLsbD 0

/-- `encode_attr` (R101); bits 5:3 are zero. -/
def encodeAttr (mode trig : BitVec 2) (shv : BitVec 1) : Byte := mode ++ (0 : BitVec 3) ++ trig ++ shv

/-- `is_edge` (R102). -/
def isEdge : Trig → Bool
  | .posLevel => false
  | .posEdge => true
  | .negLevel => false
  | .negEdge => true

/-- `is_level` (R102). -/
def isLevel (t : Trig) : Bool := !isEdge t

/-- `is_neg` (R102): negative polarity. No rule reads it; the line table R150 gives its cells one by one. -/
def isNeg : Trig → Bool
  | .posLevel => false
  | .posEdge => false
  | .negLevel => true
  | .negEdge => true

/-- `level` (R103). -/
def level (ctl : Byte) (nlbits ctlbits : Nat) : Byte :=
  (ctl &&& maskHigh (min nlbits ctlbits)) ||| maskLow (8 - min nlbits ctlbits)

/-- `priority` (R104); no other rule reads it. -/
def priority (ctl : Byte) (nlbits ctlbits : Nat) : Byte :=
  if ctlbits ≤ nlbits then 0xFF
  else ((ctl <<< nlbits) &&& maskHigh (ctlbits - nlbits)) ||| maskLow (8 - (ctlbits - nlbits))

/-- `intctl_read` (R105): the unimplemented low bits read as 1. -/
def intctlRead (raw : Byte) (ctlbits : Nat) : Byte := raw ||| maskLow (8 - ctlbits)

/-- `intcfg` of an effective mode and a raw control byte (R89, R106). -/
def intcfg (E : Mode) (ctl : Byte) : BitVec 10 := E.code ++ ctl

/-- `encode_priority` (R90, R107): the sort key of the active set. -/
def encodePriority (c : BitVec 10) (irq : Nat) : BitVec 22 := c ++ BitVec.ofNat 12 irq

/-- `encode_exccode` (R91, R109): irq in bits 11:0, mode in 13:12, level in 21:14. The positions are the spec's own choice (entry 19). -/
def encodeExccode (irq : Nat) (mode : Mode) (lvl : Byte) : BitVec 22 := lvl ++ (mode.code ++ BitVec.ofNat 12 irq)

/-- The inverse of `encode_exccode` (R109): irq, mode number, level. -/
def decodeExccode (x : BitVec 22) : Nat × BitVec 2 × Byte :=
  ((x.extractLsb' 0 12).toNat, x.extractLsb' 12 2, x.extractLsb' 14 8)

/-- `pack_cfg` (R111, R84): 4 zero bits, `unlbits`, 4 zero bits, `snlbits`, 10 zero bits, `nmbits`, `mnlbits`. -/
def packCfg (unl snl : BitVec 4) (nm : BitVec 2) (mnl : BitVec 4) : Word :=
  (0 : BitVec 4) ++ unl ++ (0 : BitVec 4) ++ snl ++ (0 : BitVec 10) ++ nm ++ mnl

/-- `mask_inttrig` (R112). -/
def maskInttrig (v : Word) : Word := v &&& 0xC0001FFF

/-- The byte a single bit reads as (R124, R125). -/
def flagByte (b : Bool) : Byte := if b then 0x01 else 0x00

/-- The bit a written byte stores (R86, R120, R121): any non-zero byte sets it. -/
def byteFlag (v : Byte) : Bool := v != 0

/-- The line table of R150: the pending bit an event stores, none in the two cells that do nothing. -/
def lineCell : Trig → Bool → Option Bool
  | .posLevel, L => some L
  | .posEdge, true => some true
  | .posEdge, false => none
  | .negLevel, L => some (!L)
  | .negEdge, true => none
  | .negEdge, false => some true

/-- Whether a selected IRQ is consumed at delivery: vectored and edge-triggered (R213). -/
def autoClears (attr : Byte) : Bool := attrShv attr && isEdge (attrTrig attr)

end Sys2Proof.Machine
end

