-- ==== Sys2Proof/Machine/Operands.lean ====
section
/-! DEFINITION. The parameters' derived values (00_scope.md R10, R13), the multi-mode filter (44_modefilter.md), the data
lanes of an access (30_encoding.md R83) and the construction check (47_view_cpu.md R236). -/

namespace Sys2Proof.Machine

/-- Whether the machine has a mode (R10): M always, S and U when their base is not 0. -/
def supports (P : Params) : Mode → Bool
  | .u => P.uclicbase != 0
  | .s => P.sclicbase != 0
  | .m => true

/-- `max_nmbits` (R13). -/
def maxNmbits (P : Params) : Nat := (supports P .s).toNat + (supports P .u).toNat

/-- `region_size` (R13, R50): the bytes of every view. -/
def regionSize (P : Params) : Nat := 0x1000 + 4 * P.numSources

/-- The base address of a view (R10, R51). -/
def viewBase (P : Params) : Mode → Nat
  | .u => P.uclicbase
  | .s => P.sclicbase
  | .m => P.mclicbase

/-- The mode `low` of R160 and R161. -/
def lowMode (P : Params) : Mode := if supports P .s then .s else .u

/-- A stored mode as a mode; the reserved 2, which is never stored, counts as M (R160, D30). -/
def storedMode (m : BitVec 2) : Mode := if m = 0 then .u else if m = 1 then .s else .m

/-- `effective_mode` of a stored mode (R160). The values of `nmbits` the machine cannot hold (R28) follow the same rows (entry 16). -/
def effectiveMode (P : Params) (nmbits : BitVec 2) (m : BitVec 2) : Mode :=
  if nmbits = 0 then .m
  else if nmbits = 1 then (if m.toNat ≤ 1 then lowMode P else .m)
  else storedMode m

/-- `coerce_mode` (R161): the mode bits a write of `clicintattr` stores. -/
def coerceMode (P : Params) (nmbits : BitVec 2) (raw old : BitVec 2) : BitVec 2 :=
  if nmbits = 0 then Mode.m.code
  else if nmbits = 1 then (if raw.toNat ≤ 1 then (lowMode P).code else Mode.m.code)
  else if raw = 2 then old
  else raw

/-- `nlbits_of` (R110): the level bits of a mode. -/
def nlbitsOf (c : Cfg) : Mode → Nat
  | .u => c.unlbits.toNat
  | .s => c.snlbits.toNat
  | .m => c.mnlbits.toNat

/-- What a view shows of `cliccfg` (R165, R185): fields that are not readable read as 0. -/
def cfgRead (P : Params) (A : Mode) (c : Cfg) : Word :=
  packCfg (if supports P .u then c.unlbits else 0)
    (if Mode.s.rank ≤ A.rank ∧ supports P .s then c.snlbits else 0)
    (if A = .m then c.nmbits else 0) (if A = .m then c.mnlbits else 0)

/-- A written `nlbits` field, kept as it was when the view may not write it or the value is not 0..8 (R186). -/
def writeNlbits (may : Bool) (old new : BitVec 4) : BitVec 4 := if may ∧ new.toNat ≤ 8 then new else old

/-- What a write of `cliccfg` through a view leaves (R165, R186): each field on its own. -/
def cfgWrite (P : Params) (A : Mode) (c : Cfg) (v : Word) : Cfg where
  mnlbits := writeNlbits (A == .m) c.mnlbits (v.extractLsb' 0 4)
  snlbits := writeNlbits (decide (Mode.s.rank ≤ A.rank) && supports P .s) c.snlbits (v.extractLsb' 16 4)
  unlbits := writeNlbits (decide (Mode.s.rank ≤ A.rank) && supports P .u) c.unlbits (v.extractLsb' 24 4)
  nmbits := if A = .m ∧ (v.extractLsb' 4 2).toNat ≤ maxNmbits P then v.extractLsb' 4 2 else c.nmbits

/-- The low byte lane of the data (R83). -/
def laneLow (v : DWord) : Byte := v.setWidth 8

/-- The data without their low lane: the lanes of the following offsets (R83). -/
def laneRest (v : DWord) : DWord := v >>> 8

/-- Data from their low byte and the rest (R83, R180). -/
def laneJoin (b : Byte) (rest : DWord) : DWord := (rest <<< 8) ||| b.setWidth 64

/-- The number of the trigger register a control offset selects (R82). -/
def trigIndex (hi : Bool) (x : BitVec 4) : Fin 32 :=
  ⟨(if hi then 16 else 0) + x.toNat, by have := x.isLt; split <;> omega⟩

/-- The legal versions (R9). -/
def versionOf (v : String) : Option Version :=
  if v = "v0.9" then some .v09 else if v = "v0.9-jmp" then some .v09jmp else none

/-- A base address is 0 or 4 KiB-aligned (R10): its low 12 bits are zero. -/
def aligned4K (a : Nat) : Bool := a % 0x1000 == 0

/-- The construction check (R236): the parameter record, none when construction fails. `k` is the number of the construction,
for the two parameters no argument gives (R12, R238; entry 18). -/
def checkConfig (a : CreateArgs) (k : Nat) : Option Params :=
  if 1 ≤ a.numSources ∧ a.numSources ≤ 4096 ∧ a.ctlbits ≤ 8 ∧
      aligned4K a.mclicbase ∧ aligned4K a.sclicbase ∧ aligned4K a.uclicbase then
    (versionOf a.version).map fun ver =>
      { numSources := a.numSources, ctlbits := a.ctlbits, version := ver, mclicbase := a.mclicbase,
        sclicbase := a.sclicbase, uclicbase := a.uclicbase, hartId := a.hartId,
        shvEnabled := Config.shvEnabledAtCreate k, jumpTable := Config.jumpTableAtCreate k }
  else none

end Sys2Proof.Machine
end

