-- ==== Sys2Proof/Machine/Ops.lean ====
section
/-! DEFINITION. The per-IRQ register file in its canonical form, the block's accessors over it, and the end of an
operation. -/

namespace Sys2Proof.Machine

/-- The registers of IRQ `i`: an IRQ that is not listed holds its reset values (R21, R40; entry 21). -/
def irqGet : List (Nat × IrqRegs) → Nat → IrqRegs
  | [], _ => IrqRegs.reset
  | (k, r) :: rest, i => if k = i then r else irqGet rest i

/-- A listed entry put in its place in the rising order. -/
def irqInsert (i : Nat) (r : IrqRegs) : List (Nat × IrqRegs) → List (Nat × IrqRegs)
  | [] => [(i, r)]
  | (k, q) :: rest =>
    if i < k then (i, r) :: (k, q) :: rest
    else if i = k then (i, r) :: rest
    else (k, q) :: irqInsert i r rest

/-- The file with the registers of IRQ `i` replaced; the reset values are not listed (entry 21). -/
def irqSet (f : List (Nat × IrqRegs)) (i : Nat) (r : IrqRegs) : List (Nat × IrqRegs) :=
  if r = IrqRegs.reset then f.filter (fun p => p.1 != i) else irqInsert i r f

/-- The canonical form of the per-IRQ file of `n` sources: IRQ numbers strictly rising and below `n`, no entry equal to
the reset values. -/
abbrev irqsWf (n : Nat) (f : List (Nat × IrqRegs)) : Prop :=
  f.Pairwise (fun p q => p.1 < q.1) ∧ ∀ p ∈ f, p.2 ≠ IrqRegs.reset ∧ p.1 < n

/-- The four registers of IRQ `i` (R21). -/
def Block.irq (b : Block) (i : Nat) : IrqRegs := irqGet b.irqs i

/-- The block with the registers of IRQ `i` replaced. -/
def Block.setIrq (b : Block) (i : Nat) (r : IrqRegs) : Block := { b with irqs := irqSet b.irqs i r }

/-- `intip[i] <- v` (R18, R22). -/
def Block.setIp (b : Block) (i : Nat) (v : Bool) : Block := b.setIrq i { b.irq i with ip := v }

/-- `intie[i] <- v` (R18, R23). -/
def Block.setIe (b : Block) (i : Nat) (v : Bool) : Block := b.setIrq i { b.irq i with ie := v }

/-- `intattr[i] <- v` (R18, R24). -/
def Block.setAttr (b : Block) (i : Nat) (v : Byte) : Block := b.setIrq i { b.irq i with attr := v }

/-- `intctl[i] <- v` (R18, R26). -/
def Block.setCtl (b : Block) (i : Nat) (v : Byte) : Block := b.setIrq i { b.irq i with ctl := v }

/-- `effective_mode(i)` (R160): recomputed from the stored mode under the current `cfg.nmbits`. -/
def effMode (P : Params) (b : Block) (i : Nat) : Mode := effectiveMode P b.cfg.nmbits (attrMode (b.irq i).attr)

/-- `visible(A, i)` (R162). -/
def visible (P : Params) (b : Block) (A : Mode) (i : Nat) : Bool := decide ((effMode P b i).rank ≤ A.rank)

/-- `intcfg_of(i)` (R106): the raw control byte under the effective mode. -/
def intcfgOf (P : Params) (b : Block) (i : Nat) : BitVec 10 := intcfg (effMode P b i) (b.irq i).ctl

/-- `level_of(i)` (R110). -/
def levelOf (P : Params) (b : Block) (i : Nat) : Byte := level (b.irq i).ctl (nlbitsOf b.cfg (effMode P b i)) P.ctlbits

/-- `priority_of(i)` (R110); read by no rule (R104). -/
def priorityOf (P : Params) (b : Block) (i : Nat) : Byte :=
  priority (b.irq i).ctl (nlbitsOf b.cfg (effMode P b i)) P.ctlbits

/-- The end of an operation: the block it leaves, what it gives back, and what it logged (R80, R257, R300). -/
def State.complete (s : State) (b : Block) (r : Result) (log : List ErrorKind) : State :=
  { s with blk := b, result := r, log := log }

end Sys2Proof.Machine
end

