-- ==== Sys2Proof/Machine/ActiveSet.lean ====
section
/-! DEFINITION. The active-set manager (42_activeset.md): the set is derived from the state (R33, R140), so it is never stale. -/

namespace Sys2Proof.Machine

/-- An entry `(intcfg, irq)` of the active set (R140). -/
structure Entry where
  cfg : BitVec 10
  irq : Nat
  deriving DecidableEq, Repr

/-- The sort key of an entry (R107). -/
def entryKey (e : Entry) : Nat := (encodePriority e.cfg e.irq).toNat

/-- Sorted by `encode_priority` descending (R140, R144). -/
def sortActive (l : List Entry) : List Entry := l.insertionSort (fun x y => entryKey y ≤ entryKey x)

/-- `ActiveSet(St)` (R140), in the order `iter()` gives it (R143). Every enabled IRQ is listed in the file, because its
registers differ from the reset values. -/
def activeSet (P : Params) (b : Block) : List Entry :=
  sortActive ((b.irqs.filter (fun p => p.2.ie)).map (fun p => ⟨intcfgOf P b p.1, p.1⟩))

/-- `insert(intcfg, irq)` (R141): append, then sort. -/
def activeInsert (l : List Entry) (c : BitVec 10) (irq : Nat) : List Entry := sortActive (l ++ [⟨c, irq⟩])

/-- `remove(intcfg, irq)` (R142): the single entry whose encoded priority matches. -/
def activeRemove (l : List Entry) (c : BitVec 10) (irq : Nat) : List Entry :=
  l.eraseP (fun e => entryKey e == entryKey ⟨c, irq⟩)

end Sys2Proof.Machine
end

