-- ==== Sys2Proof/Machine/Arbiter.lean ====
section
/-! DEFINITION. The arbiter (46_arbiter.md): the block's one shared operation that delivers an interrupt to the hart. -/

namespace Sys2Proof.Machine

/-- `floor[m] = max(xil[m], thresh[m])`, unsigned (R211). -/
def floorOf (E : Env) (mode : Mode) : Byte :=
  if E.xil.get mode ≤ E.thresh.get mode then E.thresh.get mode else E.xil.get mode

/-- The mode in bits 9:8 of an `intcfg` (R210). -/
def entryMode (c : BitVec 10) : Mode := storedMode (c.extractLsb' 8 2)

/-- The level of an entry (R210): the level of `intcfg[7:0]` under its mode's `nlbits`. -/
def entryLevel (P : Params) (c : Cfg) (e : Entry) : Byte :=
  level (e.cfg.setWidth 8) (nlbitsOf c (entryMode e.cfg)) P.ctlbits

/-- The stop test (R212): below the hart's privilege, or at it with a level strictly below its floor. -/
def stops (E : Env) (mode : Mode) (lvl : Byte) : Bool :=
  decide (mode.rank < E.priv.rank) || (mode == E.priv && decide (lvl < floorOf E mode))

/-- The scan of R210 (steps R212, R213, R215): the first entry that passes the stop test and is pending. -/
def scan (P : Params) (E : Env) (b : Block) : List Entry → Option Entry
  | [] => none
  | e :: rest =>
    if stops E (entryMode e.cfg) (entryLevel P b.cfg e) then none
    else if (b.irq e.irq).ip then some e
    else scan P E b rest

/-- Selection and post (R213, R214): the auto-clear, `exccode` and `cpu_line`. -/
def post (P : Params) (b : Block) (e : Entry) : Block :=
  { (if autoClears (b.irq e.irq).attr then b.setIp e.irq false else b) with
    exccode := encodeExccode e.irq (entryMode e.cfg) (entryLevel P b.cfg e)
    cpuLine := true }

/-- `ARBITRATE` (R210): scans the active set from its highest entry and posts at most one IRQ (R214); without a candidate
nothing changes (R215). -/
def arbitrate (P : Params) (E : Env) (b : Block) : Block :=
  match scan P E b (activeSet P b) with
  | none => b
  | some e => post P b e

end Sys2Proof.Machine
end

