-- ==== Sys2Proof/Machine/IrqState.lean ====
section
/-! DEFINITION. The accessors of the per-IRQ state (41_irqstate.md) and the event of an input line (43_input.md). -/

namespace Sys2Proof.Machine

/-- `set_pending(i, v)` (R120): ignored for a level-triggered IRQ, else stored, and the arbiter always called. -/
def setPending (P : Params) (E : Env) (b : Block) (i : Nat) (v : Byte) : Block :=
  if isLevel (attrTrig (b.irq i).attr) then b else arbitrate P E (b.setIp i (byteFlag v))

/-- `set_enable(i, v)` (R121): on a change, stored and the arbiter called. -/
def setEnable (P : Params) (E : Env) (b : Block) (i : Nat) (v : Byte) : Block :=
  if byteFlag v = (b.irq i).ie then b else arbitrate P E (b.setIe i (byteFlag v))

/-- The mode a write of `clicintattr[i]` asks for, after coercion (R122, R161). -/
def attrNewMode (P : Params) (b : Block) (i : Nat) (v : Byte) : BitVec 2 :=
  coerceMode P b.cfg.nmbits (attrMode v) (attrMode (b.irq i).attr)

/-- The byte a write of `clicintattr[i]` stores (R122): the coerced mode and `v & 0x07`. -/
def attrNew (P : Params) (b : Block) (i : Nat) (v : Byte) : Byte := attrNewMode P b i v ++ (v &&& 0x07).setWidth 6

/-- `set_attr(i, v)` (R122): dropped whole when the coerced mode exceeds `cpu.priv`; on a change, stored and the arbiter
called. `intip[i]` is not touched (R22). -/
def setAttr (P : Params) (E : Env) (b : Block) (i : Nat) (v : Byte) : Block :=
  if E.priv.rank < (attrNewMode P b i v).toNat then b
  else if attrNew P b i v = (b.irq i).attr then b
  else arbitrate P E (b.setAttr i (attrNew P b i v))

/-- `set_ctl(i, v)` (R123): on a change of the raw byte, stored and the arbiter called. -/
def setCtl (P : Params) (E : Env) (b : Block) (i : Nat) (v : Byte) : Block :=
  if v = (b.irq i).ctl then b else arbitrate P E (b.setCtl i v)

/-- `get_pending(i)` (R124). -/
def getPending (b : Block) (i : Nat) : Byte := flagByte (b.irq i).ip

/-- `get_enable(i)` (R125). -/
def getEnable (b : Block) (i : Nat) : Byte := flagByte (b.irq i).ie

/-- `get_attr(i)` (R126): the stored byte, not coerced again. -/
def getAttr (b : Block) (i : Nat) : Byte := (b.irq i).attr

/-- `get_ctl(i)` (R127). -/
def getCtl (P : Params) (b : Block) (i : Nat) : Byte := intctlRead (b.irq i).ctl P.ctlbits

/-- The pending bit a line event stores, none when it does nothing (R150). -/
def lineEffect (b : Block) (i : Nat) (L : Bool) : Option Bool := lineCell (attrTrig (b.irq i).attr) L

end Sys2Proof.Machine
end

