-- ==== Sys2Proof/Machine/Bus.lean ====
section
/-! DEFINITION. The register decoder: the two bus operations `MMIO_READ` and `MMIO_WRITE` (45_regdecoder.md), whole, for
every view, offset and width. The meanings of the table's rows are calls of these two. -/

namespace Sys2Proof.Machine

/-- `irq_byte_read` (R191): a byte of the per-IRQ region, with the errors it logs. -/
def byteRead (P : Params) (b : Block) (A : Mode) (off : Nat) : Byte × List ErrorKind :=
  if P.numSources ≤ irqOf off then (0, [.invalidIrq])
  else if !visible P b A (irqOf off) then (0, [])
  else if selOf off = 0 then (getPending b (irqOf off), [])
  else if selOf off = 1 then (getEnable b (irqOf off), [])
  else if selOf off = 2 then (getAttr b (irqOf off), [])
  else (getCtl P b (irqOf off), [])

/-- `irq_byte_write` (R192): visibility is judged on the state the earlier byte steps left. -/
def byteWrite (P : Params) (E : Env) (A : Mode) (b : Block) (off : Nat) (v : Byte) : Block × List ErrorKind :=
  if P.numSources ≤ irqOf off then (b, [.invalidIrq])
  else if !visible P b A (irqOf off) then (b, [])
  else if selOf off = 0 then (setPending P E b (irqOf off) v, [])
  else if selOf off = 1 then (setEnable P E b (irqOf off) v, [])
  else if selOf off = 2 then (setAttr P E b (irqOf off) v, [])
  else (setCtl P E b (irqOf off) v, [])

/-- The byte reads of an access at `off`, `off + 1`, ..., assembled little-endian (R180, R201). -/
def lanesRead (P : Params) (b : Block) (A : Mode) : Nat → Nat → DWord × List ErrorKind
  | 0, _ => (0, [])
  | k + 1, off =>
    (laneJoin (byteRead P b A off).1 (lanesRead P b A k (off + 1)).1,
      (byteRead P b A off).2 ++ (lanesRead P b A k (off + 1)).2)

/-- The byte writes of an access at `off`, `off + 1`, ..., low byte first, each complete before the next (R181, R202). -/
def lanesWrite (P : Params) (E : Env) (A : Mode) : Nat → Block → Nat → DWord → Block × List ErrorKind
  | 0, b, _, _ => (b, [])
  | k + 1, b, off, v =>
    ((lanesWrite P E A k (byteWrite P E A b off (laneLow v)).1 (off + 1) (laneRest v)).1,
      (byteWrite P E A b off (laneLow v)).2
        ++ (lanesWrite P E A k (byteWrite P E A b off (laneLow v)).1 (off + 1) (laneRest v)).2)

/-- `ctrl_read` (R184): none where the spec gives the access no meaning (R57). -/
def ctrlRead (P : Params) (b : Block) (A : Mode) (off : Nat) (n : Width) : Option (DWord × List ErrorKind) :=
  match ctrlLookup off with
  | none => some (0, [.outOfRange])
  | some r =>
    if n ≠ .w then none
    else match r with
      | .cliccfg => some ((cfgRead P A b.cfg).setWidth 64, [])
      | .inttrigLo x => some ((b.inttrig.get (trigIndex false x)).setWidth 64, [])
      | .inttrigHi x => some ((b.inttrig.get (trigIndex true x)).setWidth 64, [])

/-- `ctrl_write` (R184); no control write calls the arbiter (R186, R188). -/
def ctrlWrite (P : Params) (b : Block) (A : Mode) (off : Nat) (n : Width) (v : DWord) : Option (Block × List ErrorKind) :=
  match ctrlLookup off with
  | none => some (b, [.outOfRange])
  | some r =>
    if n ≠ .w then none
    else match r with
      | .cliccfg => some ({ b with cfg := cfgWrite P A b.cfg (v.setWidth 32) }, [])
      | .inttrigLo x => some ({ b with inttrig := b.inttrig.set (trigIndex false x) (maskInttrig (v.setWidth 32)) }, [])
      | .inttrigHi x => some ({ b with inttrig := b.inttrig.set (trigIndex true x) (maskInttrig (v.setWidth 32)) }, [])

/-- `MMIO_READ(A, off, n)` (R180), in the order of checks of R62. -/
def mmioRead (P : Params) (E : Env) (b : Block) (A : Mode) (off : Nat) (n : Width) : Option (DWord × List ErrorKind) :=
  if E.priv.rank < A.rank then some (0, [.privilegeDenied])
  else if off % n.bytes ≠ 0 then some (0, [.misalignedAccess])
  else if off < 0x1000 then ctrlRead P b A off n
  else some (lanesRead P b A n.bytes off)

/-- `MMIO_WRITE(A, off, n, v)` (R181), in the order of checks of R62. -/
def mmioWrite (P : Params) (E : Env) (b : Block) (A : Mode) (off : Nat) (n : Width) (v : DWord) :
    Option (Block × List ErrorKind) :=
  if E.priv.rank < A.rank then some (b, [.privilegeDenied])
  else if off % n.bytes ≠ 0 then some (b, [.misalignedAccess])
  else if off < 0x1000 then ctrlWrite P b A off n v
  else some (lanesWrite P E A n.bytes b off v)

/-- A read through a view: the view exists (R51; entry 9), `cpu.priv` is a supported mode (U20; entry 10), and the access
has a meaning (R57; entry 12). It changes no state of the block (R59). -/
def busRead (A : Mode) (off : Nat) (n : Width) (s : State) : Host.Outcome State Fault Refusal :=
  if !supports s.params A then .refused .viewAbsent
  else if !supports s.params s.env.priv then .refused .privUnsupported
  else match mmioRead s.params s.env s.blk A off n with
    | none => .refused .controlWidth
    | some (v, log) => .next (s.complete s.blk (.data n v) log)

/-- A write through a view, under the same conditions as a read. It gives nothing back (R181). -/
def busWrite (A : Mode) (off : Nat) (n : Width) (v : DWord) (s : State) : Host.Outcome State Fault Refusal :=
  if !supports s.params A then .refused .viewAbsent
  else if !supports s.params s.env.priv then .refused .privUnsupported
  else match mmioWrite s.params s.env s.blk A off n v with
    | none => .refused .controlWidth
    | some (b, log) => .next (s.complete b .nothing log)

/-- The accesses no row of the table names run the same two bus operations (R180, R181, R184, R300; entry 22). -/
def execUnlisted (a : Unlisted) (s : State) : Host.Outcome State Fault Refusal :=
  match a with
  | .read A off n => busRead A off n s
  | .write A off n v => busWrite A off n v s

end Sys2Proof.Machine
end

