-- ==== Sys2Proof/Machine/Control.lean ====
section
/-! DEFINITION. The meanings of the control-region rows: `cliccfg` (R185, R186) and `clicinttrig` (R187, R188). -/

namespace Sys2Proof.Machine

/-- RD.W cliccfg (R185). -/
def execRdCliccfg (A : Mode) (s : State) : Host.Outcome State Fault Refusal :=
  busRead A CtrlReg.cliccfg.offset .w s

/-- WR.W cliccfg (R186). -/
def execWrCliccfg (A : Mode) (v : Word) (s : State) : Host.Outcome State Fault Refusal :=
  busWrite A CtrlReg.cliccfg.offset .w (v.setWidth 64) s

/-- RD.W clicinttrig[x], x in 0..15 (R187). -/
def execRdInttrigLo (A : Mode) (x : BitVec 4) (s : State) : Host.Outcome State Fault Refusal :=
  busRead A (CtrlReg.inttrigLo x).offset .w s

/-- WR.W clicinttrig[x], x in 0..15 (R188). -/
def execWrInttrigLo (A : Mode) (x : BitVec 4) (v : Word) (s : State) : Host.Outcome State Fault Refusal :=
  busWrite A (CtrlReg.inttrigLo x).offset .w (v.setWidth 64) s

/-- RD.W clicinttrig[16 + x] (R187). -/
def execRdInttrigHi (A : Mode) (x : BitVec 4) (s : State) : Host.Outcome State Fault Refusal :=
  busRead A (CtrlReg.inttrigHi x).offset .w s

/-- WR.W clicinttrig[16 + x] (R188). -/
def execWrInttrigHi (A : Mode) (x : BitVec 4) (v : Word) (s : State) : Host.Outcome State Fault Refusal :=
  busWrite A (CtrlReg.inttrigHi x).offset .w (v.setWidth 64) s

end Sys2Proof.Machine
end

