-- ==== Sys2Proof/Machine/PerIrq.lean ====
section
/-! DEFINITION. The meanings of the per-IRQ rows (R193 to R202). -/

namespace Sys2Proof.Machine

/-- RD.B clicintip[i] (R193). -/
def execRdIp (A : Mode) (i : Nat) (s : State) : Host.Outcome State Fault Refusal := busRead A (irqOff i 0) .b s

/-- WR.B clicintip[i] (R194, R120). -/
def execWrIp (A : Mode) (i : Nat) (v : Byte) (s : State) : Host.Outcome State Fault Refusal :=
  busWrite A (irqOff i 0) .b (v.setWidth 64) s

/-- RD.B clicintie[i] (R195). -/
def execRdIe (A : Mode) (i : Nat) (s : State) : Host.Outcome State Fault Refusal := busRead A (irqOff i 1) .b s

/-- WR.B clicintie[i] (R196, R121). -/
def execWrIe (A : Mode) (i : Nat) (v : Byte) (s : State) : Host.Outcome State Fault Refusal :=
  busWrite A (irqOff i 1) .b (v.setWidth 64) s

/-- RD.B clicintattr[i] (R197). -/
def execRdAttr (A : Mode) (i : Nat) (s : State) : Host.Outcome State Fault Refusal := busRead A (irqOff i 2) .b s

/-- WR.B clicintattr[i] (R198, R122). -/
def execWrAttr (A : Mode) (i : Nat) (v : Byte) (s : State) : Host.Outcome State Fault Refusal :=
  busWrite A (irqOff i 2) .b (v.setWidth 64) s

/-- RD.B clicintctl[i] (R199). -/
def execRdCtl (A : Mode) (i : Nat) (s : State) : Host.Outcome State Fault Refusal := busRead A (irqOff i 3) .b s

/-- WR.B clicintctl[i] (R200, R123). -/
def execWrCtl (A : Mode) (i : Nat) (v : Byte) (s : State) : Host.Outcome State Fault Refusal :=
  busWrite A (irqOff i 3) .b (v.setWidth 64) s

/-- RD.H/W/D of the per-IRQ region (R201). -/
def execRdWide (A : Mode) (off : Nat) (n : Width) (s : State) : Host.Outcome State Fault Refusal := busRead A off n s

/-- WR.H/W/D of the per-IRQ region (R202). -/
def execWrWide (A : Mode) (off : Nat) (n : Width) (v : DWord) (s : State) : Host.Outcome State Fault Refusal :=
  busWrite A off n v s

end Sys2Proof.Machine
end

