-- ==== Sys2Proof/Machine/Signals.lean ====
section
/-! DEFINITION. The meanings of the rows that are no bus access: LINE, ARB, ACK, CREATE, RESET. -/

namespace Sys2Proof.Machine

/-- LINE(i, L) (R150): the table of the trigger type in force; after a pending-bit update the arbiter runs (R155), with
`cpu.priv` a supported mode; the two cells that do nothing do not ask for it (U20; entry 10). A line that does not exist is no operation (entry 11). -/
def execLine (i : Nat) (L : Bool) (s : State) : Host.Outcome State Fault Refusal :=
  if s.params.numSources ≤ i then .refused .noSuchLine
  else match lineEffect s.blk i L with
    | none => .next (s.complete s.blk .nothing [])
    | some v =>
      if !supports s.params s.env.priv then .refused .privUnsupported
      else .next (s.complete (arbitrate s.params s.env (s.blk.setIp i v)) .nothing [])

/-- ARBITRATE requested by the hart side (R210, R218). -/
def execArb (s : State) : Host.Outcome State Fault Refusal :=
  if !supports s.params s.env.priv then .refused .privUnsupported
  else .next (s.complete (arbitrate s.params s.env s.blk) .nothing [])

/-- CPU_ACCEPT (R234): gives `exccode` back and lowers `cpu_line`; nothing else changes. -/
def execAck (s : State) : Host.Outcome State Fault Refusal :=
  .next (s.complete { s.blk with cpuLine := false } (.accepted s.blk.exccode) [])

/-- The block in the reset state of R40, `exccode` the next free value (U3; entry 5), with the parameters `P`. -/
def State.restart (s : State) (P : Params) : State :=
  { s.complete (Block.reset (Config.exccodeAtReset s.freeCount)) .nothing [] with
    params := P, freeCount := s.freeCount + 1 }

/-- CREATE (R235): the arguments checked (R236), the parameters fixed, the block in the reset state; an earlier block is
replaced (entry 15), and the two parameters no argument gives are free values (entry 18). Illegal arguments are the fatal `BadConfig` (R256). -/
def execCreate (a : CreateArgs) (s : State) : Host.Outcome State Fault Refusal :=
  match checkConfig a s.freeCount with
  | none => .fault .badConfig
  | some P => .next (s.restart P)

/-- RESET (R237): the reset state, parameters kept, no arbitration. -/
def execReset (s : State) : Host.Outcome State Fault Refusal := .next (s.restart s.params)

end Sys2Proof.Machine
end

