-- ==== Sys2Proof/Machine/Dispatch.lean ====
section
/-! DEFINITION. One arm for each row of the operation table. -/

namespace Sys2Proof.Machine

def exec (i : Instr) (s : State) : Host.Outcome State Fault Refusal :=
  match i with
  | .rdCliccfg A => Sys2Proof.Machine.execRdCliccfg A s
  | .wrCliccfg A v => Sys2Proof.Machine.execWrCliccfg A v s
  | .rdInttrigLo A x => Sys2Proof.Machine.execRdInttrigLo A x s
  | .wrInttrigLo A x v => Sys2Proof.Machine.execWrInttrigLo A x v s
  | .rdInttrigHi A x => Sys2Proof.Machine.execRdInttrigHi A x s
  | .wrInttrigHi A x v => Sys2Proof.Machine.execWrInttrigHi A x v s
  | .rdIp A irq => Sys2Proof.Machine.execRdIp A irq s
  | .wrIp A irq v => Sys2Proof.Machine.execWrIp A irq v s
  | .rdIe A irq => Sys2Proof.Machine.execRdIe A irq s
  | .wrIe A irq v => Sys2Proof.Machine.execWrIe A irq v s
  | .rdAttr A irq => Sys2Proof.Machine.execRdAttr A irq s
  | .wrAttr A irq v => Sys2Proof.Machine.execWrAttr A irq v s
  | .rdCtl A irq => Sys2Proof.Machine.execRdCtl A irq s
  | .wrCtl A irq v => Sys2Proof.Machine.execWrCtl A irq v s
  | .rdWide A off n => Sys2Proof.Machine.execRdWide A off n s
  | .wrWide A off n v => Sys2Proof.Machine.execWrWide A off n v s
  | .line irq L => Sys2Proof.Machine.execLine irq L s
  | .arb => Sys2Proof.Machine.execArb s
  | .ack => Sys2Proof.Machine.execAck s
  | .create a => Sys2Proof.Machine.execCreate a s
  | .reset => Sys2Proof.Machine.execReset s

end Sys2Proof.Machine
end

