-- ==== Sys2Proof/Machine/View.lean ====
section
/-! DEFINITION. The views (47_view_cpu.md R230, R231) and the taking of the next input. -/

namespace Sys2Proof.Machine

/-- Whether a system address lies in the region of a present view (R51, R231). -/
def inView (P : Params) (addr : Nat) (A : Mode) : Bool :=
  supports P A && decide (viewBase P A ≤ addr) && decide (addr < viewBase P A + regionSize P)

/-- The present views whose regions hold a system address; legal parameters give at most one (R51). -/
def viewsAt (P : Params) (addr : Nat) : List Mode := [Mode.m, Mode.s, Mode.u].filter (inView P addr)

/-- What an input comes to: an operation, a bus access outside every view, or an address inside two. -/
inductive Issued where
  | op (o : RawOp)
  | unrouted
  | overlapping
  deriving DecidableEq, Repr

/-- A view forwards a bus access with its own access mode and the offset from its base (R231). -/
def issueOf (P : Params) : Input → Issued
  | .op o => .op o
  | .busRead addr n =>
    match viewsAt P addr with
    | [] => .unrouted
    | [A] => .op (.read A.code (addr - viewBase P A) n)
    | _ :: _ :: _ => .overlapping
  | .busWrite addr n v =>
    match viewsAt P addr with
    | [] => .unrouted
    | [A] => .op (.write A.code (addr - viewBase P A) n v)
    | _ :: _ :: _ => .overlapping

/-- The state in which the operation of a request runs: its environment record sampled (R17), the later ones waiting. -/
def State.sample (s : State) (q : Request) (rest : List Request) : State := { s with env := q.env, pending := rest }

end Sys2Proof.Machine
end

