-- ==== Sys2Proof/Machine/Step.lean ====
section
/-! DEFINITION. One step: the next input of the environment's serial order (20_memory.md R64), whole. -/

namespace Sys2Proof.Machine

/-- An operation tuple, decoded and run. -/
def runOp (o : RawOp) (s : State) : Host.Outcome State Fault Refusal :=
  match decode o with
  | .instr i => exec i s
  | .unlisted a => execUnlisted a s
  | .rejected r => .refused (.notAnOperation r)

/-- One step. The first pending request is taken, its environment record sampled (R17), and its operation performed to
completion (R64). Nothing pending: the block waits for its environment and nothing changes (R299; entry 1). A bus access
outside every view does not reach the block (R231; entry 14). -/
def step (s : State) : Host.Outcome State Fault Refusal :=
  match s.pending with
  | [] => .next s
  | q :: rest =>
    match issueOf s.params q.input with
    | .op o => runOp o (s.sample q rest)
    | .unrouted => .next ((s.sample q rest).complete s.blk .nothing [])
    | .overlapping => .refused .overlappingViews

/-- The state in which the environment issues the operation of a table word next (entry 3). -/
def State.withFetchWord (s : State) (nbits w : Nat) : State :=
  { s with pending := { env := s.env, input := .op (tableOp nbits w) } :: s.pending }

end Sys2Proof.Machine
end

