-- ==== Sys2Proof/Safety.lean ====
section
/-! DEFINITION. The invariants of R41 and the domain of the operations (R300), in the terms the statements use. -/

namespace Sys2Proof.Machine

/-- Legal parameters: construction succeeded (R7, R8, R10, R236). -/
abbrev paramsLegal (P : Params) : Prop :=
  1 ≤ P.numSources ∧ P.numSources ≤ 4096 ∧ P.ctlbits ≤ 8 ∧
    P.mclicbase % 0x1000 = 0 ∧ P.sclicbase % 0x1000 = 0 ∧ P.uclicbase % 0x1000 = 0

/-- The stored modes a write could have produced on this machine (R25): never 2. -/
abbrev modeLegal (P : Params) (c : BitVec 2) : Prop :=
  c = 3 ∨ (c = 1 ∧ supports P .s) ∨ (c = 0 ∧ supports P .u)

/-- A legal attribute byte (R25, R41): bits 5:3 zero, a legal mode. -/
abbrev attrLegal (P : Params) (a : Byte) : Prop := a.extractLsb' 3 3 = 0 ∧ modeLegal P (attrMode a)

/-- Legal `cliccfg` fields (R28). -/
abbrev cfgLegal (P : Params) (c : Cfg) : Prop :=
  c.mnlbits.toNat ≤ 8 ∧ c.snlbits.toNat ≤ 8 ∧ c.unlbits.toNat ≤ 8 ∧ c.nmbits.toNat ≤ maxNmbits P ∧
    (supports P .s = false → c.snlbits = 0) ∧ (supports P .u = false → c.unlbits = 0)

/-- The invariants of the block (R41), with the canonical form of the per-IRQ file. -/
abbrev blockInv (P : Params) (b : Block) : Prop :=
  irqsWf P.numSources b.irqs ∧ (∀ p ∈ b.irqs, attrLegal P p.2.attr) ∧ cfgLegal P b.cfg ∧
    ∀ x : Fin 32, b.inttrig.get x &&& ~~~(0xC0001FFF : Word) = 0

/-- What an operation gives back has the bits the operation says (R180, D37): read data of `8n` bits. -/
abbrev resultFits : Result → Prop
  | .nothing => True
  | .data n v => v.toNat < 2 ^ (8 * n.bytes)
  | .accepted _ => True

/-- The invariant of the machine (R41, R301). The environment record and what the environment issues are unconstrained. -/
abbrev stateInv (s : State) : Prop := paramsLegal s.params ∧ blockInv s.params s.blk ∧ resultFits s.result

/-- The access mode of the view of a bus access. -/
def viewOf : Instr → Option Mode
  | .rdCliccfg A => some A
  | .wrCliccfg A _ => some A
  | .rdInttrigLo A _ => some A
  | .wrInttrigLo A _ _ => some A
  | .rdInttrigHi A _ => some A
  | .wrInttrigHi A _ _ => some A
  | .rdIp A _ => some A
  | .wrIp A _ _ => some A
  | .rdIe A _ => some A
  | .wrIe A _ _ => some A
  | .rdAttr A _ => some A
  | .wrAttr A _ _ => some A
  | .rdCtl A _ => some A
  | .wrCtl A _ _ => some A
  | .rdWide A _ _ => some A
  | .wrWide A _ _ _ => some A
  | .line _ _ => none
  | .arb => none
  | .ack => none
  | .create _ => none
  | .reset => none

/-- Whether an instruction is a read of a register. -/
def isRead : Instr → Bool
  | .rdCliccfg _ => true
  | .wrCliccfg _ _ => false
  | .rdInttrigLo _ _ => true
  | .wrInttrigLo _ _ _ => false
  | .rdInttrigHi _ _ => true
  | .wrInttrigHi _ _ _ => false
  | .rdIp _ _ => true
  | .wrIp _ _ _ => false
  | .rdIe _ _ => true
  | .wrIe _ _ _ => false
  | .rdAttr _ _ => true
  | .wrAttr _ _ _ => false
  | .rdCtl _ _ => true
  | .wrCtl _ _ _ => false
  | .rdWide _ _ _ => true
  | .wrWide _ _ _ _ => false
  | .line _ _ => false
  | .arb => false
  | .ack => false
  | .create _ => false
  | .reset => false

/-- The width of the data an instruction that reads gives back. -/
def readWidth : Instr → Option Width
  | .rdCliccfg _ => some .w
  | .wrCliccfg _ _ => none
  | .rdInttrigLo _ _ => some .w
  | .wrInttrigLo _ _ _ => none
  | .rdInttrigHi _ _ => some .w
  | .wrInttrigHi _ _ _ => none
  | .rdIp _ _ => some .b
  | .wrIp _ _ _ => none
  | .rdIe _ _ => some .b
  | .wrIe _ _ _ => none
  | .rdAttr _ _ => some .b
  | .wrAttr _ _ _ => none
  | .rdCtl _ _ => some .b
  | .wrCtl _ _ _ => none
  | .rdWide _ _ n => some n
  | .wrWide _ _ _ _ => none
  | .line _ _ => none
  | .arb => none
  | .ack => none
  | .create _ => none
  | .reset => none

/-- The premises of R300 on the operation and its environment: the view exists, `cpu.priv` is a supported mode, the line
exists, the construction arguments are legal. `ack`, `create` and `reset` do not read `cpu.priv` and are not asked for a
supported one, as R300 would (DESIGN CHOICE, entry 10). -/
def inDomain (P : Params) (E : Env) : Instr → Bool
  | .rdCliccfg A => supports P A && supports P E.priv
  | .wrCliccfg A _ => supports P A && supports P E.priv
  | .rdInttrigLo A _ => supports P A && supports P E.priv
  | .wrInttrigLo A _ _ => supports P A && supports P E.priv
  | .rdInttrigHi A _ => supports P A && supports P E.priv
  | .wrInttrigHi A _ _ => supports P A && supports P E.priv
  | .rdIp A _ => supports P A && supports P E.priv
  | .wrIp A _ _ => supports P A && supports P E.priv
  | .rdIe A _ => supports P A && supports P E.priv
  | .wrIe A _ _ => supports P A && supports P E.priv
  | .rdAttr A _ => supports P A && supports P E.priv
  | .wrAttr A _ _ => supports P A && supports P E.priv
  | .rdCtl A _ => supports P A && supports P E.priv
  | .wrCtl A _ _ => supports P A && supports P E.priv
  | .rdWide A _ _ => supports P A && supports P E.priv
  | .wrWide A _ _ _ => supports P A && supports P E.priv
  | .line i _ => decide (i < P.numSources) && supports P E.priv
  | .arb => supports P E.priv
  | .ack => true
  | .create a => (checkConfig a 0).isSome
  | .reset => true

/-- A bus access through the view of mode `A` passes the checks before the register decode: the view exists, `cpu.priv` is a
supported mode, and the view is not above it (R182). -/
abbrev viewUsable (s : State) (A : Mode) : Prop :=
  supports s.params A = true ∧ supports s.params s.env.priv = true ∧ A.rank ≤ s.env.priv.rank

/-- A system address lies in the region of the view of mode `A`, which is present (R10, R51, R231). -/
abbrev inRegion (P : Params) (A : Mode) (addr : Nat) : Prop :=
  supports P A = true ∧ viewBase P A ≤ addr ∧ addr < viewBase P A + (0x1000 + 4 * P.numSources)

/-- The two cells of the line table that do nothing (R150): the inactive level of an edge, in the `trig` bits 2:1. -/
abbrev lineIsNoOp (attr : Byte) (L : Bool) : Prop :=
  (attr.extractLsb' 1 2 = 1 ∧ L = false) ∨ (attr.extractLsb' 1 2 = 3 ∧ L = true)

/-- The byte read of the per-IRQ region at a byte offset (R81). -/
def byteReadInstr (A : Mode) (off : Nat) : Instr :=
  if off % 4 = 0 then .rdIp A ((off - 0x1000) / 4)
  else if off % 4 = 1 then .rdIe A ((off - 0x1000) / 4)
  else if off % 4 = 2 then .rdAttr A ((off - 0x1000) / 4)
  else .rdCtl A ((off - 0x1000) / 4)

/-- The byte write of the per-IRQ region at a byte offset (R81). -/
def byteWriteInstr (A : Mode) (off : Nat) (v : Byte) : Instr :=
  if off % 4 = 0 then .wrIp A ((off - 0x1000) / 4) v
  else if off % 4 = 1 then .wrIe A ((off - 0x1000) / 4) v
  else if off % 4 = 2 then .wrAttr A ((off - 0x1000) / 4) v
  else .wrCtl A ((off - 0x1000) / 4) v

/-- A multi-byte write that covers a byte offset (R202). -/
abbrev coveredByWide (i : Instr) (b : Nat) : Prop :=
  ∃ (A : Mode) (off : Nat) (n : Width) (v : DWord), i = .wrWide A off n v ∧ off ≤ b ∧ b < off + n.bytes

/-- Instructions run one after another, up to the first that stops. -/
def runAll : List Instr → State → Host.Outcome State Fault Refusal
  | [], s => .next s
  | i :: rest, s =>
    match exec i s with
    | .next t => runAll rest t
    | .fault r => .fault r
    | .refused r => .refused r

/-- An interrupt the arbiter may post (R212, R213, R260): it exists, is enabled and pending, and is not masked: its mode is
not below `cpu.priv`, and at `cpu.priv` its level is not below the floor `max(xil, thresh)` of that mode (R211). -/
abbrev eligible (s : State) (i : Nat) : Prop :=
  i < s.params.numSources ∧ (s.blk.irq i).ie = true ∧ (s.blk.irq i).ip = true ∧
    s.env.priv.rank ≤ (effMode s.params s.blk i).rank ∧
    (effMode s.params s.blk i = s.env.priv →
      max (s.env.xil.get s.env.priv).toNat (s.env.thresh.get s.env.priv).toNat ≤ (levelOf s.params s.blk i).toNat)

/-- The arbitration order as a number (R107, R216, R262): higher mode, then higher raw control byte, then higher IRQ number. -/
def orderKey (s : State) (i : Nat) : Nat :=
  ((effMode s.params s.blk i).rank * 256 + (s.blk.irq i).ctl.toNat) * 4096 + i

/-- The machine with other values of the four parameters that CREATE stores and no rule reads (R238). -/
def State.carrying (s : State) (hart : Nat) (ver : Version) (shv jmp : Bool) : State :=
  { s with params := { s.params with hartId := hart, version := ver, shvEnabled := shv, jumpTable := jmp } }

/-- Two machines that differ only in IRQs hidden from the view of mode `A` (R162, R163). -/
abbrev sameThrough (A : Mode) (s t : State) : Prop :=
  s.params = t.params ∧ s.env = t.env ∧ s.blk.cfg = t.blk.cfg ∧ s.blk.inttrig = t.blk.inttrig ∧
    ∀ i, s.blk.irq i = t.blk.irq i ∨
      (A.rank < (effMode s.params s.blk i).rank ∧ A.rank < (effMode t.params t.blk i).rank)

end Sys2Proof.Machine
end

