-- ==== Sys2Proof/Certificates/Slice0/Obligations.lean ====
section
/-! DEFINITION. The statements for the provers. Each docstring names the rule it formalises, or the model's choice it rests on. -/

open Sys2Proof Sys2Proof.Machine

/-! ### Encoding -/

/-- The tuples of 95_test_vectors.md stand for the rows they are written for (R80, R81, R82, R94). -/
def Obligations.SpecTuplesDecodeToTheirRows : Prop :=
  decode (.write 3 0x1033 1 0x21) = .instr (.wrCtl .m 12 0x21) ∧
  decode (.read 3 0x1033 1) = .instr (.rdCtl .m 12) ∧
  decode (.write 3 0x1064 1 0x01) = .instr (.wrIp .m 25 0x01) ∧
  decode (.read 0 0x1010 1) = .instr (.rdIp .u 4) ∧
  decode (.write 3 0x1065 1 0x01) = .instr (.wrIe .m 25 0x01) ∧
  decode (.read 1 0x100D 1) = .instr (.rdIe .s 3) ∧
  decode (.write 1 0x100E 1 0xC0) = .instr (.wrAttr .s 3 0xC0) ∧
  decode (.read 3 0x1032 1) = .instr (.rdAttr .m 12) ∧
  decode (.write 3 0x0000 4 0x01020024) = .instr (.wrCliccfg .m 0x01020024) ∧
  decode (.write 1 0x00BC 4 0x80000019) = .instr (.wrInttrigHi .s 15 0x80000019) ∧
  decode (.write 3 0x0044 4 0x3FFFE000) = .instr (.wrInttrigLo .m 1 0x3FFFE000) ∧
  decode (.write 3 0x1068 8 0xFFC1010020C20001) = .instr (.wrWide .m 0x1068 .d 0xFFC1010020C20001) ∧
  decode (.read 3 0x1066 2) = .instr (.rdWide .m 0x1066 .h) ∧
  decode (.line 25 1) = .instr (.line 25 true)

/-- Decoding the tuple of a well-formed instruction gives it back, with every operand at every value (R80 to R82). -/
def Obligations.DecodeOfEncodeIsTheInstruction : Prop :=
  ∀ i : Instr, WellFormed i = true → decode (encode i) = .instr i

/-- Every tuple that decodes to an instruction is the tuple of that instruction, which is well-formed: one meaning a tuple. -/
def Obligations.EncodeOfDecodeIsTheTuple : Prop :=
  ∀ (o : RawOp) (i : Instr), decode o = .instr i → WellFormed i = true ∧ encode i = o

/-- The match and mask of the control region on the 12-bit offset, for reads and writes (R82). -/
def Obligations.ControlOffsetsDecodeByMatchAndMask : Prop :=
  ∀ (A : Mode) (off v : Nat), off < 0x1000 → v < 2 ^ 32 →
    decode (.read A.code off 4) =
      (if BitVec.ofNat 12 off &&& 0xFFF = 0x000 then .instr (.rdCliccfg A)
       else if BitVec.ofNat 12 off &&& 0xFC3 = 0x040 then .instr (.rdInttrigLo A ((BitVec.ofNat 12 off).extractLsb' 2 4))
       else if BitVec.ofNat 12 off &&& 0xFC3 = 0x080 then .instr (.rdInttrigHi A ((BitVec.ofNat 12 off).extractLsb' 2 4))
       else .unlisted (.read A off .w)) ∧
    decode (.write A.code off 4 v) =
      (if BitVec.ofNat 12 off &&& 0xFFF = 0x000 then .instr (.wrCliccfg A (BitVec.ofNat 32 v))
       else if BitVec.ofNat 12 off &&& 0xFC3 = 0x040 then
        .instr (.wrInttrigLo A ((BitVec.ofNat 12 off).extractLsb' 2 4) (BitVec.ofNat 32 v))
       else if BitVec.ofNat 12 off &&& 0xFC3 = 0x080 then
        .instr (.wrInttrigHi A ((BitVec.ofNat 12 off).extractLsb' 2 4) (BitVec.ofNat 32 v))
       else .unlisted (.write A off .w (BitVec.ofNat 64 v)))

/-- A byte offset of the per-IRQ region decodes to an IRQ number and a register selector; one below 0x1000 is of the
control region and selects none (R81). -/
def Obligations.PerIrqOffsetsDecodeToIrqAndRegister : Prop :=
  ∀ (A : Mode) (off v : Nat), v < 2 ^ 8 →
    (off < 0x1000 →
      decode (.read A.code off 1) = .unlisted (.read A off .b) ∧
      decode (.write A.code off 1 v) = .unlisted (.write A off .b (BitVec.ofNat 64 v))) ∧
    (0x1000 ≤ off →
      decode (.read A.code off 1) =
        .instr (if off &&& 3 = 0 then .rdIp A ((off - 0x1000) >>> 2)
          else if off &&& 3 = 1 then .rdIe A ((off - 0x1000) >>> 2)
          else if off &&& 3 = 2 then .rdAttr A ((off - 0x1000) >>> 2)
          else .rdCtl A ((off - 0x1000) >>> 2)) ∧
      decode (.write A.code off 1 v) =
        .instr (if off &&& 3 = 0 then .wrIp A ((off - 0x1000) >>> 2) (BitVec.ofNat 8 v)
          else if off &&& 3 = 1 then .wrIe A ((off - 0x1000) >>> 2) (BitVec.ofNat 8 v)
          else if off &&& 3 = 2 then .wrAttr A ((off - 0x1000) >>> 2) (BitVec.ofNat 8 v)
          else .wrCtl A ((off - 0x1000) >>> 2) (BitVec.ofNat 8 v)))

/-! ### The step -/

/-- The step performs the decoded instruction of the first request, with the environment record that request samples. The
queue of requests is the model's (entry 1). -/
def Obligations.StepRunsTheDecodedInstruction : Prop :=
  ∀ (s : State) (E : Env) (o : RawOp) (rest : List Request) (i : Instr),
    s.pending = { env := E, input := .op o } :: rest → decode o = .instr i →
      step s = exec i { s with env := E, pending := rest }

/-- With nothing issued the machine stays as it is. The model's choice (entry 1), after R299. -/
def Obligations.StepWithNothingIssuedChangesNothing : Prop :=
  ∀ s : State, s.pending = [] → step s = .next s

/-- A bus access inside the region of one present view is the access of that view at the offset from its base (R231); one
outside every region leaves the block as it is (the model's choice, entry 14). -/
def Obligations.ViewsForwardBusAccesses : Prop :=
  ∀ (s : State) (E : Env) (rest : List Request) (addr n v : Nat),
    (∀ A : Mode, supports s.params A = true → viewBase s.params A ≤ addr →
        addr < viewBase s.params A + (0x1000 + 4 * s.params.numSources) →
        (∀ B : Mode, B ≠ A → supports s.params B = true →
          ¬ (viewBase s.params B ≤ addr ∧ addr < viewBase s.params B + (0x1000 + 4 * s.params.numSources))) →
        step { s with pending := { env := E, input := .busRead addr n } :: rest } =
          step { s with pending := { env := E, input := .op (.read A.code (addr - viewBase s.params A) n) } :: rest } ∧
        step { s with pending := { env := E, input := .busWrite addr n v } :: rest } =
          step { s with pending := { env := E, input := .op (.write A.code (addr - viewBase s.params A) n v) } :: rest }) ∧
    ((∀ B : Mode, supports s.params B = true →
        ¬ (viewBase s.params B ≤ addr ∧ addr < viewBase s.params B + (0x1000 + 4 * s.params.numSources))) →
      step { s with pending := { env := E, input := .busRead addr n } :: rest } =
        .next { s with env := E, pending := rest, result := .nothing, log := [] } ∧
      step { s with pending := { env := E, input := .busWrite addr n v } :: rest } =
        .next { s with env := E, pending := rest, result := .nothing, log := [] })

/-! ### Accesses that fail a check -/

/-- An access through a view above `cpu.priv` is denied whole: it reads zero or drops the write, and is logged (R182, R254). -/
def Obligations.AccessAboveThePrivilegeIsDenied : Prop :=
  ∀ (s : State) (A : Mode) (off v : Nat) (n : Width),
    supports s.params A = true → supports s.params s.env.priv = true → s.env.priv.rank < A.rank → v < 2 ^ (8 * n.bytes) →
      runOp (.read A.code off n.bytes) s = .next { s with result := .data n 0, log := [.privilegeDenied] } ∧
      runOp (.write A.code off n.bytes v) s = .next { s with result := .nothing, log := [.privilegeDenied] }

/-- An access that is not naturally aligned is logged, reads zero or drops the write, in either region (R54, R183, R251). -/
def Obligations.MisalignedAccessReadsZeroAndDropsWrites : Prop :=
  ∀ (s : State) (A : Mode) (off v : Nat) (n : Width), viewUsable s A → off % n.bytes ≠ 0 → v < 2 ^ (8 * n.bytes) →
    runOp (.read A.code off n.bytes) s = .next { s with result := .data n 0, log := [.misalignedAccess] } ∧
    runOp (.write A.code off n.bytes v) s = .next { s with result := .nothing, log := [.misalignedAccess] }

/-- An aligned access to a control-region offset that starts no register is out of range, whatever its width (R189, R190, R252). -/
def Obligations.ControlOffsetWithoutRegisterIsOutOfRange : Prop :=
  ∀ (s : State) (A : Mode) (off v : Nat) (n : Width), viewUsable s A → off % n.bytes = 0 → off < 0x1000 → off ≠ 0 →
    ¬ (0x40 ≤ off ∧ off ≤ 0xBF ∧ off % 4 = 0) → v < 2 ^ (8 * n.bytes) →
      runOp (.read A.code off n.bytes) s = .next { s with result := .data n 0, log := [.outOfRange] } ∧
      runOp (.write A.code off n.bytes v) s = .next { s with result := .nothing, log := [.outOfRange] }

/-- An aligned access of another width than 4 at the start of a control register is refused by name: the spec's decision
D19 gives it no meaning (R57, U6; entry 12). -/
def Obligations.OtherWidthsOfControlRegistersAreRefused : Prop :=
  ∀ (s : State) (A : Mode) (off v : Nat) (n : Width), viewUsable s A → n ≠ .w → off % n.bytes = 0 →
    (off = 0 ∨ (0x40 ≤ off ∧ off ≤ 0xBF ∧ off % 4 = 0)) → v < 2 ^ (8 * n.bytes) →
      runOp (.read A.code off n.bytes) s = .refused .controlWidth ∧
      runOp (.write A.code off n.bytes v) s = .refused .controlWidth

/-- An IRQ that does not exist reads zero and drops the write, logged, for each of its four registers (R203, R253). -/
def Obligations.MissingIrqReadsZeroAndDropsWrites : Prop :=
  ∀ (s : State) (A : Mode) (i : Nat) (v : Byte), viewUsable s A → s.params.numSources ≤ i →
    (exec (.rdIp A i) s = .next { s with result := .data .b 0, log := [.invalidIrq] } ∧
      exec (.rdIe A i) s = .next { s with result := .data .b 0, log := [.invalidIrq] } ∧
      exec (.rdAttr A i) s = .next { s with result := .data .b 0, log := [.invalidIrq] } ∧
      exec (.rdCtl A i) s = .next { s with result := .data .b 0, log := [.invalidIrq] }) ∧
    (exec (.wrIp A i v) s = .next { s with result := .nothing, log := [.invalidIrq] } ∧
      exec (.wrIe A i v) s = .next { s with result := .nothing, log := [.invalidIrq] } ∧
      exec (.wrAttr A i v) s = .next { s with result := .nothing, log := [.invalidIrq] } ∧
      exec (.wrCtl A i v) s = .next { s with result := .nothing, log := [.invalidIrq] })

/-- An IRQ whose effective mode is above the view's mode reads zero in all four registers and drops the write, not logged
(R163). -/
def Obligations.InvisibleIrqReadsZeroAndDropsWrites : Prop :=
  ∀ (s : State) (A : Mode) (i : Nat) (v : Byte), viewUsable s A → i < s.params.numSources →
    A.rank < (effMode s.params s.blk i).rank →
    (exec (.rdIp A i) s = .next { s with result := .data .b 0, log := [] } ∧
      exec (.rdIe A i) s = .next { s with result := .data .b 0, log := [] } ∧
      exec (.rdAttr A i) s = .next { s with result := .data .b 0, log := [] } ∧
      exec (.rdCtl A i) s = .next { s with result := .data .b 0, log := [] }) ∧
    (exec (.wrIp A i v) s = .next { s with result := .nothing, log := [] } ∧
      exec (.wrIe A i v) s = .next { s with result := .nothing, log := [] } ∧
      exec (.wrAttr A i v) s = .next { s with result := .nothing, log := [] } ∧
      exec (.wrCtl A i v) s = .next { s with result := .nothing, log := [] })

/-- Outside the premises of R300 an operation is refused by name. An access through an absent view (entry 9), a row of the
table or any other access; an operation that reads an unsupported `cpu.priv` (entry 10): an access, an arbitration, a line
event of a cell that arbitrates; an event of a line that does not exist (entry 11); a bus access at an address inside two
views (entry 13). Where to stop is the model's choice. -/
def Obligations.OperationsOutsideTheirDomainAreRefused : Prop :=
  (∀ (s : State) (i : Instr) (A : Mode), viewOf i = some A → supports s.params A = false →
      exec i s = .refused .viewAbsent) ∧
  (∀ (s : State) (i : Instr) (A : Mode), viewOf i = some A → supports s.params A = true →
      supports s.params s.env.priv = false → exec i s = .refused .privUnsupported) ∧
  (∀ (s : State) (A : Mode) (off v : Nat) (n : Width), v < 2 ^ (8 * n.bytes) → supports s.params A = false →
      runOp (.read A.code off n.bytes) s = .refused .viewAbsent ∧
      runOp (.write A.code off n.bytes v) s = .refused .viewAbsent) ∧
  (∀ (s : State) (A : Mode) (off v : Nat) (n : Width), v < 2 ^ (8 * n.bytes) → supports s.params A = true →
      supports s.params s.env.priv = false →
      runOp (.read A.code off n.bytes) s = .refused .privUnsupported ∧
      runOp (.write A.code off n.bytes v) s = .refused .privUnsupported) ∧
  (∀ s : State, supports s.params s.env.priv = false → exec .arb s = .refused .privUnsupported) ∧
  (∀ (s : State) (i : Nat) (L : Bool), i < s.params.numSources → supports s.params s.env.priv = false →
      ¬ lineIsNoOp (s.blk.irq i).attr L → exec (.line i L) s = .refused .privUnsupported) ∧
  (∀ (s : State) (i : Nat) (L : Bool), s.params.numSources ≤ i → exec (.line i L) s = .refused .noSuchLine) ∧
  (∀ (s : State) (E : Env) (rest : List Request) (A B : Mode) (addr n v : Nat), A ≠ B →
      inRegion s.params A addr → inRegion s.params B addr →
      step { s with pending := { env := E, input := .busRead addr n } :: rest } = .refused .overlappingViews ∧
      step { s with pending := { env := E, input := .busWrite addr n v } :: rest } = .refused .overlappingViews)

/-! ### The control registers -/

/-- A read of `cliccfg` gives the fields the view may read (R185, R165): the filter is the spec's decision D15. -/
def Obligations.ReadOfCliccfgGivesTheReadableFields : Prop :=
  ∀ (s : State) (A : Mode), viewUsable s A →
    exec (.rdCliccfg A) s = .next { s with
      result := .data .w
        ((if A = .m then s.blk.cfg.mnlbits.setWidth 64 else 0) |||
          (if A = .m then s.blk.cfg.nmbits.setWidth 64 <<< 4 else 0) |||
          (if Mode.s.rank ≤ A.rank ∧ s.params.sclicbase ≠ 0 then s.blk.cfg.snlbits.setWidth 64 <<< 16 else 0) |||
          (if s.params.uclicbase ≠ 0 then s.blk.cfg.unlbits.setWidth 64 <<< 24 else 0))
      log := [] }

/-- A write of `cliccfg` treats each field on its own and does nothing else, in particular no arbitration (R186): the
discarded values and the filter are the spec's decisions D15, D16, D17, D31. -/
def Obligations.WriteOfCliccfgTreatsEachFieldOnItsOwn : Prop :=
  ∀ (s : State) (A : Mode) (v : Word), viewUsable s A →
    exec (.wrCliccfg A v) s = .next { s with
      blk := { s.blk with cfg := {
        mnlbits := if A = .m ∧ (v.extractLsb' 0 4).toNat ≤ 8 then v.extractLsb' 0 4 else s.blk.cfg.mnlbits
        nmbits := if A = .m ∧ (v.extractLsb' 4 2).toNat ≤
            (if s.params.sclicbase ≠ 0 then 1 else 0) + (if s.params.uclicbase ≠ 0 then 1 else 0)
          then v.extractLsb' 4 2 else s.blk.cfg.nmbits
        snlbits := if Mode.s.rank ≤ A.rank ∧ s.params.sclicbase ≠ 0 ∧ (v.extractLsb' 16 4).toNat ≤ 8
          then v.extractLsb' 16 4 else s.blk.cfg.snlbits
        unlbits := if Mode.s.rank ≤ A.rank ∧ s.params.uclicbase ≠ 0 ∧ (v.extractLsb' 24 4).toNat ≤ 8
          then v.extractLsb' 24 4 else s.blk.cfg.unlbits } }
      result := .nothing
      log := [] }

/-- A read of a `clicinttrig` register gives what it stores, the same through every view (R187, decision D18). -/
def Obligations.ReadOfClicinttrigGivesTheStoredValue : Prop :=
  ∀ (s : State) (A : Mode) (x : BitVec 4) (k : Fin 32), viewUsable s A →
    (k.val = x.toNat → exec (.rdInttrigLo A x) s =
      .next { s with result := .data .w ((s.blk.inttrig.get k).setWidth 64), log := [] }) ∧
    (k.val = 16 + x.toNat → exec (.rdInttrigHi A x) s =
      .next { s with result := .data .w ((s.blk.inttrig.get k).setWidth 64), log := [] })

/-- A write of a `clicinttrig` register stores the masked value and nothing else happens (R188). -/
def Obligations.WriteOfClicinttrigOnlyStoresTheMaskedValue : Prop :=
  ∀ (s : State) (A : Mode) (x : BitVec 4) (v : Word) (k : Fin 32), viewUsable s A →
    (k.val = x.toNat → exec (.wrInttrigLo A x v) s = .next { s with
      blk := { s.blk with inttrig := s.blk.inttrig.set k.val (v &&& 0xC0001FFF) k.isLt }, result := .nothing, log := [] }) ∧
    (k.val = 16 + x.toNat → exec (.wrInttrigHi A x v) s = .next { s with
      blk := { s.blk with inttrig := s.blk.inttrig.set k.val (v &&& 0xC0001FFF) k.isLt }, result := .nothing, log := [] })

/-! ### The per-IRQ registers -/

/-- Reads of the pending, enable and attribute bytes of a visible IRQ (R193, R195, R197): one bit each, and the stored
attribute byte (decisions D38, D12). -/
def Obligations.ReadsOfPendingEnableAndAttribute : Prop :=
  ∀ (s : State) (A : Mode) (i : Nat), viewUsable s A → i < s.params.numSources →
    (effMode s.params s.blk i).rank ≤ A.rank →
    exec (.rdIp A i) s = .next { s with result := .data .b (if (s.blk.irq i).ip then 1 else 0), log := [] } ∧
    exec (.rdIe A i) s = .next { s with result := .data .b (if (s.blk.irq i).ie then 1 else 0), log := [] } ∧
    exec (.rdAttr A i) s = .next { s with result := .data .b ((s.blk.irq i).attr.setWidth 64), log := [] }

/-- A read of the control byte of a visible IRQ shows the unimplemented low bits as 1 (R199, R105, R127). -/
def Obligations.ReadOfControlByteHardwiresLowBits : Prop :=
  ∀ (s : State) (A : Mode) (i : Nat), viewUsable s A → i < s.params.numSources →
    (effMode s.params s.blk i).rank ≤ A.rank →
    exec (.rdCtl A i) s = .next { s with
      result := .data .b (((s.blk.irq i).ctl ||| BitVec.ofNat 8 (2 ^ (8 - s.params.ctlbits) - 1)).setWidth 64), log := [] }

/-- A write of the pending byte is ignored for a level-triggered IRQ; for an edge-triggered one it stores whether the byte
is non-zero and calls the arbiter, whether or not the bit changed (R194, R120). -/
def Obligations.WriteOfPendingByteStoresOnlyForEdges : Prop :=
  ∀ (s : State) (A : Mode) (i : Nat) (v : Byte), viewUsable s A → i < s.params.numSources →
    (effMode s.params s.blk i).rank ≤ A.rank →
    exec (.wrIp A i v) s = .next { s with
      blk := if (s.blk.irq i).attr.getLsbD 1 = false then s.blk
        else arbitrate s.params s.env (s.blk.setIrq i { s.blk.irq i with ip := v != 0 })
      result := .nothing
      log := [] }

/-- A write of the enable byte stores whether it is non-zero (decision D14) and calls the arbiter, only on a change (R196, R121). -/
def Obligations.WriteOfEnableByteArbitratesOnAChange : Prop :=
  ∀ (s : State) (A : Mode) (i : Nat) (v : Byte), viewUsable s A → i < s.params.numSources →
    (effMode s.params s.blk i).rank ≤ A.rank →
    exec (.wrIe A i v) s = .next { s with
      blk := if (v != 0) = (s.blk.irq i).ie then s.blk
        else arbitrate s.params s.env (s.blk.setIrq i { s.blk.irq i with ie := v != 0 })
      result := .nothing
      log := [] }

/-- A write of the attribute byte stores the coerced mode with bits 2:0 of the byte, dropped whole when that mode exceeds
`cpu.priv` (decision D13); the arbiter runs on a change only (R198, R122). -/
def Obligations.WriteOfAttributeByteCoercesTheMode : Prop :=
  ∀ (s : State) (A : Mode) (i : Nat) (v : Byte) (mode : BitVec 2) (new : Byte), viewUsable s A → i < s.params.numSources →
    (effMode s.params s.blk i).rank ≤ A.rank →
    mode = coerceMode s.params s.blk.cfg.nmbits (v.extractLsb' 6 2) ((s.blk.irq i).attr.extractLsb' 6 2) →
    new = (mode.setWidth 8 <<< 6) ||| (v &&& 0x07) →
    exec (.wrAttr A i v) s = .next { s with
      blk := if s.env.priv.rank < mode.toNat ∨ new = (s.blk.irq i).attr then s.blk
        else arbitrate s.params s.env (s.blk.setIrq i { s.blk.irq i with attr := new })
      result := .nothing
      log := [] }

/-- A write of the control byte stores all eight bits, and calls the arbiter on a change of the raw byte (R200, R123). -/
def Obligations.WriteOfControlByteStoresTheRawByte : Prop :=
  ∀ (s : State) (A : Mode) (i : Nat) (v : Byte), viewUsable s A → i < s.params.numSources →
    (effMode s.params s.blk i).rank ≤ A.rank →
    exec (.wrCtl A i v) s = .next { s with
      blk := if v = (s.blk.irq i).ctl then s.blk
        else arbitrate s.params s.env (s.blk.setIrq i { s.blk.irq i with ctl := v })
      result := .nothing
      log := [] }

/-- A wide read is the little-endian assembly of the byte reads at its offsets, each with its own checks (R201). -/
def Obligations.WideReadAssemblesTheByteReads : Prop :=
  ∀ (s : State) (A : Mode) (off : Nat) (n : Width), supports s.params A = true → supports s.params s.env.priv = true →
    WellFormed (.rdWide A off n) = true →
    ∃ (v : DWord) (log : List ErrorKind), exec (.rdWide A off n) s = .next { s with result := .data n v, log := log } ∧
      v.toNat < 2 ^ (8 * n.bytes) ∧
      ∀ k < n.bytes, ∃ log', exec (byteReadInstr A (off + k)) s =
        .next { s with result := .data .b ((v.extractLsb' (8 * k) 8).setWidth 64), log := log' }

/-- A wide write is the sequence of the byte writes at its offsets, low byte first, each complete, with its arbitration,
before the next (R202): the reading that each byte step arbitrates is the spec's decision D35. -/
def Obligations.WideWriteIsTheSequenceOfByteWrites : Prop :=
  ∀ (s : State) (A : Mode) (off : Nat) (n : Width) (v : DWord), supports s.params A = true →
    supports s.params s.env.priv = true → WellFormed (.wrWide A off n v) = true →
    ∃ (t : State) (log : List ErrorKind),
      runAll ((List.range n.bytes).map (fun k => byteWriteInstr A (off + k) (v.extractLsb' (8 * k) 8))) s = .next t ∧
      exec (.wrWide A off n v) s = .next { t with log := log }

/-! ### Lines, arbitration, acceptance -/

/-- The line table of the four trigger types (R150), at a supported `cpu.priv`: the pending bit stored and the arbiter run, or
nothing. That the arbiter runs in the six cells that store, and not in the other two, is the spec's decision D21 (R155). The
second clause adds that the two cells that do nothing complete at a `cpu.priv` the machine lacks as well: U20 and R300 leave
that out, and it is the model's choice (entry 10). -/
def Obligations.LineEventFollowsTheTriggerTable : Prop :=
  ∀ (s : State) (i : Nat) (L : Bool), i < s.params.numSources →
    (supports s.params s.env.priv = true →
      exec (.line i L) s = .next { s with
        blk :=
          if (s.blk.irq i).attr.extractLsb' 1 2 = 0 then
            arbitrate s.params s.env (s.blk.setIrq i { s.blk.irq i with ip := L })
          else if (s.blk.irq i).attr.extractLsb' 1 2 = 1 then
            (if L then arbitrate s.params s.env (s.blk.setIrq i { s.blk.irq i with ip := true }) else s.blk)
          else if (s.blk.irq i).attr.extractLsb' 1 2 = 2 then
            arbitrate s.params s.env (s.blk.setIrq i { s.blk.irq i with ip := !L })
          else
            (if L then s.blk else arbitrate s.params s.env (s.blk.setIrq i { s.blk.irq i with ip := true }))
        result := .nothing
        log := [] }) ∧
    (lineIsNoOp (s.blk.irq i).attr L → exec (.line i L) s = .next { s with result := .nothing, log := [] })

/-- A line event leaves the active set as it is (R147). -/
def Obligations.LineEventKeepsTheActiveSet : Prop :=
  ∀ (s t : State) (i : Nat) (L : Bool), stateInv s → exec (.line i L) s = .next t →
    activeSet t.params t.blk = activeSet s.params s.blk

/-- The arbiter posts the eligible interrupt that is highest in the order, and consumes it when it is vectored and
edge-triggered (R213, R214, R216). What is eligible is the stop test and the floor of R211 and R212 with the pending and the
enable bit; that the scan misses no eligible interrupt rests on R108, derived there. -/
def Obligations.ArbiterPostsTheHighestEligibleInterrupt : Prop :=
  ∀ (s : State) (i : Nat), stateInv s → supports s.params s.env.priv = true → eligible s i →
    (∀ j, eligible s j → orderKey s j ≤ orderKey s i) →
    exec .arb s = .next { s with
      blk := { (if (s.blk.irq i).attr.getLsbD 0 = true ∧ (s.blk.irq i).attr.getLsbD 1 = true
            then s.blk.setIrq i { s.blk.irq i with ip := false } else s.blk) with
        exccode := encodeExccode i (effMode s.params s.blk i) (levelOf s.params s.blk i)
        cpuLine := true }
      result := .nothing
      log := [] }

/-- Without an eligible interrupt an arbitration changes nothing: `exccode` and `cpu_line` keep their values (R215,
decision D28). -/
def Obligations.ArbiterWithoutCandidateChangesNothing : Prop :=
  ∀ s : State, stateInv s → supports s.params s.env.priv = true → (∀ j, ¬ eligible s j) →
    exec .arb s = .next { s with result := .nothing, log := [] }

/-- What an arbitration never does: set a pending bit, change another register, clear more than one pending bit, read a
trigger register, or look at an IRQ that is not enabled (R219). -/
def Obligations.ArbiterFrame : Prop :=
  ∀ (s t : State), stateInv s → exec .arb s = .next t →
    (∀ j, ((t.blk.irq j).ip = true → (s.blk.irq j).ip = true) ∧ (t.blk.irq j).ie = (s.blk.irq j).ie ∧
      (t.blk.irq j).attr = (s.blk.irq j).attr ∧ (t.blk.irq j).ctl = (s.blk.irq j).ctl) ∧
    t.blk.cfg = s.blk.cfg ∧ t.blk.inttrig = s.blk.inttrig ∧
    (∀ j k, (t.blk.irq j).ip ≠ (s.blk.irq j).ip → (t.blk.irq k).ip ≠ (s.blk.irq k).ip → j = k) ∧
    (∀ trig : Vector Word 32, exec .arb { s with blk := { s.blk with inttrig := trig } } =
      .next { t with blk := { t.blk with inttrig := trig } }) ∧
    (∀ (j : Nat) (r : IrqRegs), j < s.params.numSources → (s.blk.irq j).ie = false → r.ie = false →
      ∃ u : State, exec .arb { s with blk := s.blk.setIrq j r } = .next u ∧ u.blk.irq j = r ∧
        u.blk.exccode = t.blk.exccode ∧ u.blk.cpuLine = t.blk.cpuLine ∧ ∀ k, k ≠ j → u.blk.irq k = t.blk.irq k) ∧
    t.params = s.params ∧ t.env = s.env ∧ t.pending = s.pending ∧ t.freeCount = s.freeCount

/-- An arbitration that consumed nothing gives the same result again (R220, derived there). -/
def Obligations.ArbitrationThatConsumesNothingRepeats : Prop :=
  ∀ (s t : State), exec .arb s = .next t → (∀ j, (t.blk.irq j).ip = (s.blk.irq j).ip) → exec .arb t = .next t

/-- `CPU_ACCEPT` gives `exccode` back, lowers the line and changes nothing else (R234): the lowering is the spec's decision
D5. That it completes at a `cpu.priv` the machine lacks is the model's choice (entry 10). -/
def Obligations.AcceptReturnsExccodeAndLowersTheLine : Prop :=
  ∀ s : State, exec .ack s =
    .next { s with blk := { s.blk with cpuLine := false }, result := .accepted s.blk.exccode, log := [] }

/-- Along the active set an entry that stops the scan is followed only by entries that stop it too (R108, derived there). -/
def Obligations.StoppedEntriesStayStopped : Prop :=
  ∀ (P : Params) (E : Env) (b : Block) (l₁ l₂ : List Entry) (x : Entry), activeSet P b = l₁ ++ x :: l₂ →
    stops E (entryMode x.cfg) (entryLevel P b.cfg x) = true →
      ∀ y ∈ l₂, stops E (entryMode y.cfg) (entryLevel P b.cfg y) = true

/-! ### The active set and the codec -/

/-- The active set holds exactly the enabled IRQs, with their current `intcfg`, strictly sorted by encoded priority
descending (R140). -/
def Obligations.ActiveSetHoldsTheEnabledIrqsInOrder : Prop :=
  ∀ s : State, stateInv s →
    (∀ (i : Nat) (c : BitVec 10), ⟨c, i⟩ ∈ activeSet s.params s.blk ↔
      i < s.params.numSources ∧ (s.blk.irq i).ie = true ∧ c = intcfgOf s.params s.blk i) ∧
    (activeSet s.params s.blk).Pairwise
      (fun x y => encodePriority y.cfg y.irq < encodePriority x.cfg x.irq)

/-- Enabling an IRQ is `insert` on the active set and disabling one is `remove` (R141, R142). -/
def Obligations.EnableInsertsAndDisableRemoves : Prop :=
  ∀ (s : State) (i : Nat), stateInv s → i < s.params.numSources →
    ((s.blk.irq i).ie = false →
      activeSet s.params (s.blk.setIe i true) =
        activeInsert (activeSet s.params s.blk) (intcfgOf s.params s.blk i) i) ∧
    ((s.blk.irq i).ie = true →
      activeSet s.params (s.blk.setIe i false) =
        activeRemove (activeSet s.params s.blk) (intcfgOf s.params s.blk i) i)

/-- The encoded priority orders by mode, then by raw control byte, then by IRQ number (R107). -/
def Obligations.EncodedPriorityOrdersByModeControlIrq : Prop :=
  ∀ (E F : Mode) (c d : Byte) (i j : Nat), i < 4096 → j < 4096 →
    (encodePriority (intcfg E c) i < encodePriority (intcfg F d) j ↔
      E.rank < F.rank ∨ (E = F ∧ (c < d ∨ (c = d ∧ i < j))))

/-- The level as a number, its two ends, and that it never falls when the control byte rises (R103, the last derived there). -/
def Obligations.LevelKeepsTheHighBitsAndFillsTheRest : Prop :=
  ∀ (c d : Byte) (nlbits ctlbits : Nat), nlbits ≤ 8 → ctlbits ≤ 8 →
    (level c nlbits ctlbits).toNat =
      c.toNat / 2 ^ (8 - min nlbits ctlbits) * 2 ^ (8 - min nlbits ctlbits) + (2 ^ (8 - min nlbits ctlbits) - 1) ∧
    (min nlbits ctlbits = 0 → level c nlbits ctlbits = 0xFF) ∧
    (min nlbits ctlbits = 8 → level c nlbits ctlbits = c) ∧
    (c ≤ d → level c nlbits ctlbits ≤ level d nlbits ctlbits)

/-- The value handed to the hart determines the IRQ number, the mode and the level (R109): the positions are the spec's own
choice (decision D2, G1). -/
def Obligations.ExccodeDeterminesIrqModeAndLevel : Prop :=
  ∀ (i : Nat) (mode : Mode) (l : Byte), i < 4096 →
    decodeExccode (encodeExccode i mode l) = (i, mode.code, l) ∧
    (encodeExccode i mode l).toNat = i + mode.rank * 2 ^ 12 + l.toNat * 2 ^ 14

/-- The effective modes of R160; its row for `nmbits = 1` on M+S+U is the spec's decision D10. On the combinations R160 says
cannot occur (`nmbits = 1` on an M-only machine, `nmbits = 2` on a machine that is not M+S+U) the values are the model's
choice (entry 16). -/
def Obligations.EffectiveModeFollowsTheTable : Prop :=
  ∀ (P : Params),
    (∀ m, effectiveMode P 0 m = .m) ∧
    (∀ m : BitVec 2, m = 0 ∨ m = 1 →
      effectiveMode P 1 m = (if P.sclicbase ≠ 0 then .s else .u)) ∧
    effectiveMode P 1 3 = .m ∧
    effectiveMode P 2 0 = .u ∧ effectiveMode P 2 1 = .s ∧ effectiveMode P 2 3 = .m

/-- The mode a write of `clicintattr` stores (R161): at `nmbits = 2` a written 2 keeps the old mode. The row for `nmbits = 1`
on M+S+U rests on the spec's decision D10; on combinations of `nmbits` and machine that cannot occur (R160) the values are the
model's choice (entry 16). -/
def Obligations.WrittenModeIsCoercedByTheTable : Prop :=
  ∀ (P : Params) (old : BitVec 2),
    (∀ raw, coerceMode P 0 raw old = 3) ∧
    (∀ raw : BitVec 2, raw = 0 ∨ raw = 1 → coerceMode P 1 raw old = (if P.sclicbase ≠ 0 then 1 else 0)) ∧
    coerceMode P 1 2 old = 3 ∧ coerceMode P 1 3 old = 3 ∧
    coerceMode P 2 0 old = 0 ∧ coerceMode P 2 1 old = 1 ∧ coerceMode P 2 2 old = old ∧ coerceMode P 2 3 old = 3

/-! ### Construction and reset -/

/-- Construction with legal arguments fixes the parameters and puts the block in the reset state (R235, R40): an earlier
block is replaced (entry 15), `exccode` is any value (U3; entry 5), `shv_enabled` and `jump_table` are any values (R12, R238;
entry 18), the reset values are the spec's decision D3. That it completes at a `cpu.priv` the machine lacks is the model's choice
(entry 10). -/
def Obligations.CreateFixesTheParametersAndResets : Prop :=
  ∀ (s : State) (a : CreateArgs), 1 ≤ a.numSources → a.numSources ≤ 4096 → a.ctlbits ≤ 8 →
    a.mclicbase % 0x1000 = 0 → a.sclicbase % 0x1000 = 0 → a.uclicbase % 0x1000 = 0 →
    (a.version = "v0.9" ∨ a.version = "v0.9-jmp") →
    ∃ t : State, exec (.create a) s = .next t ∧
      t.params = { numSources := a.numSources, ctlbits := a.ctlbits,
                   version := if a.version = "v0.9" then .v09 else .v09jmp,
                   mclicbase := a.mclicbase, sclicbase := a.sclicbase, uclicbase := a.uclicbase, hartId := a.hartId,
                   shvEnabled := t.params.shvEnabled, jumpTable := t.params.jumpTable } ∧
      (∀ i, t.blk.irq i = { ip := false, ie := false, attr := 0xC0, ctl := 0x00 }) ∧ t.blk.irqs = [] ∧
      t.blk.cfg = { mnlbits := 0, snlbits := 0, unlbits := 0, nmbits := 0 } ∧
      (∀ n : Fin 32, t.blk.inttrig.get n = 0) ∧ t.blk.cpuLine = false ∧
      t.env = s.env ∧ t.pending = s.pending ∧ t.result = .nothing ∧ t.log = []

/-- Construction with an illegal argument is the fatal error (R236, R256): the alignment and the lower bound are the spec's
decision D25. That it is so at a `cpu.priv` the machine lacks is the model's choice (entry 10). -/
def Obligations.CreateWithIllegalArgumentsIsFatal : Prop :=
  ∀ (s : State) (a : CreateArgs),
    (a.numSources = 0 ∨ 4096 < a.numSources ∨ 8 < a.ctlbits ∨ (a.version ≠ "v0.9" ∧ a.version ≠ "v0.9-jmp") ∨
      a.mclicbase % 0x1000 ≠ 0 ∨ a.sclicbase % 0x1000 ≠ 0 ∨ a.uclicbase % 0x1000 ≠ 0) →
    exec (.create a) s = .fault .badConfig

/-- `RESET` puts the block in the reset state, keeps the parameters and calls no arbitration (R237, decision D4): `exccode`
is any value (U3; entry 5). That it completes at a `cpu.priv` the machine lacks is the model's choice (entry 10). -/
def Obligations.ResetRestoresTheResetState : Prop :=
  ∀ s : State, ∃ t : State, exec .reset s = .next t ∧ t.params = s.params ∧
    (∀ i, t.blk.irq i = { ip := false, ie := false, attr := 0xC0, ctl := 0x00 }) ∧ t.blk.irqs = [] ∧
    t.blk.cfg = { mnlbits := 0, snlbits := 0, unlbits := 0, nmbits := 0 } ∧
    (∀ n : Fin 32, t.blk.inttrig.get n = 0) ∧ t.blk.cpuLine = false ∧
    t.env = s.env ∧ t.pending = s.pending ∧ t.result = .nothing ∧ t.log = []

/-- The state after reset holds the values of R40 (decision D3); its `exccode` and its parameters are the model's choices
(entries 4 and 5) and are not stated. -/
def Obligations.ResetStateHoldsTheTableValues : Prop :=
  (∀ i, State.reset.blk.irq i = { ip := false, ie := false, attr := 0xC0, ctl := 0x00 }) ∧
  State.reset.blk.cfg = { mnlbits := 0, snlbits := 0, unlbits := 0, nmbits := 0 } ∧
  (∀ n : Fin 32, State.reset.blk.inttrig.get n = 0) ∧ State.reset.blk.cpuLine = false ∧
  activeSet State.reset.params State.reset.blk = []

/-- The state after reset meets the invariants (R40, R41). -/
def Obligations.ResetStateMeetsTheInvariant : Prop := stateInv State.reset

/-! ### Whole-machine rules -/

/-- Every step keeps the invariants (R41, R301), whatever the environment issues and samples. -/
def Obligations.EveryStepKeepsTheInvariant : Prop :=
  ∀ s t : State, stateInv s → step s = .next t → stateInv t

/-- Every instruction in its domain (`inDomain`) completes in every state (R299). The domain is that of R300 but for one point:
`ack`, `create` and `reset` are asked for no supported `cpu.priv`; that they complete at one the machine lacks is the model's
choice (entry 10). -/
def Obligations.OperationsInTheirDomainComplete : Prop :=
  ∀ (s : State) (i : Instr), WellFormed i = true → inDomain s.params s.env i = true → ∃ t, exec i s = .next t

/-- Reads change nothing but what is given back and logged (R59, derived there and decision D37). -/
def Obligations.ReadsChangeNoState : Prop :=
  ∀ (s t : State),
    (∀ i : Instr, isRead i = true → exec i s = .next t → t = { s with result := t.result, log := t.log }) ∧
    (∀ (A : Mode) (off : Nat) (n : Width), runOp (.read A.code off n.bytes) s = .next t →
      t = { s with result := t.result, log := t.log })

/-- What a view reads does not depend on the IRQs hidden from it (R163). -/
def Obligations.ReadsDoNotDependOnHiddenIrqs : Prop :=
  ∀ (A : Mode) (s s' t : State) (i : Instr), sameThrough A s s' → isRead i = true → viewOf i = some A →
    exec i s = .next t → ∃ t', exec i s' = .next t' ∧ t'.result = t.result ∧ t'.log = t.log

/-- A write through a view leaves the enable, attribute and control registers of the IRQs hidden from it alone (R163); their
pending bits change only by the arbiter's auto-clear (R213). -/
def Obligations.WritesLeaveHiddenIrqsAlone : Prop :=
  ∀ (A : Mode) (s t : State) (i : Instr) (j : Nat), viewOf i = some A → exec i s = .next t →
    A.rank < (effMode s.params s.blk j).rank →
    (t.blk.irq j).ie = (s.blk.irq j).ie ∧ (t.blk.irq j).attr = (s.blk.irq j).attr ∧
      (t.blk.irq j).ctl = (s.blk.irq j).ctl ∧ ((t.blk.irq j).ip = true → (s.blk.irq j).ip = true)

/-- No operation but construction and reset gives an IRQ a new mode above `cpu.priv` (R122, R265; the compared mode is the
coerced one, decision D13). -/
def Obligations.NoWriteRaisesAModeAboveThePrivilege : Prop :=
  ∀ (s t : State) (i : Instr) (j : Nat), (∀ a, i ≠ .create a) → i ≠ .reset → exec i s = .next t →
    attrMode (t.blk.irq j).attr ≠ attrMode (s.blk.irq j).attr → (attrMode (t.blk.irq j).attr).toNat ≤ s.env.priv.rank

/-- The outbound line falls only by `CPU_ACCEPT`, reset and construction (R32, decision D5). -/
def Obligations.OnlyAcceptAndResetLowerTheLine : Prop :=
  ∀ (s t : State) (i : Instr), exec i s = .next t → s.blk.cpuLine = true → t.blk.cpuLine = false →
    i = .ack ∨ i = .reset ∨ ∃ a, i = .create a

/-- `exccode` changes only with a post: the line is up and the value is that of an existing, enabled IRQ, with its effective
mode and its level (R31, R202, R214). `r` are the IRQ's registers when it was posted: those after the instruction, but for the
registers that a later byte of the same wide write changed, which are those before it. -/
def Obligations.ExccodeChangesOnlyWithAPost : Prop :=
  ∀ (s t : State) (i : Instr), stateInv s → (∀ a, i ≠ .create a) → i ≠ .reset → exec i s = .next t →
    t.blk.exccode ≠ s.blk.exccode →
    t.blk.cpuLine = true ∧ ∃ (j : Nat) (r : IrqRegs), j < s.params.numSources ∧ r.ie = true ∧
      t.blk.exccode = encodeExccode j (effMode t.params (t.blk.setIrq j r) j) (levelOf t.params (t.blk.setIrq j r) j) ∧
      ((t.blk.irq j).ie = true ∨ ((s.blk.irq j).ie = true ∧ coveredByWide i (0x1000 + 4 * j + 1))) ∧
      (r.attr = (t.blk.irq j).attr ∨ (r.attr = (s.blk.irq j).attr ∧ coveredByWide i (0x1000 + 4 * j + 2))) ∧
      (r.ctl = (t.blk.irq j).ctl ∨ (r.ctl = (s.blk.irq j).ctl ∧ coveredByWide i (0x1000 + 4 * j + 3)))

/-- Which operations write which registers (R21, R23, R27, R29, R37): apart from construction and reset, a pending bit
rises only by its own write or its line, the enable, attribute and control registers change only by writes that cover their
byte, `cliccfg` and the trigger registers only by theirs, the parameters and the environment record never. -/
def Obligations.RegistersChangeOnlyByTheirOwnWrites : Prop :=
  ∀ (s t : State) (i : Instr), WellFormed i = true → (∀ a, i ≠ .create a) → i ≠ .reset → exec i s = .next t →
    (∀ j, (s.blk.irq j).ip = false → (t.blk.irq j).ip = true →
      (∃ A v, i = .wrIp A j v) ∨ coveredByWide i (0x1000 + 4 * j) ∨ ∃ L, i = .line j L) ∧
    (∀ j, (t.blk.irq j).ie ≠ (s.blk.irq j).ie → (∃ A v, i = .wrIe A j v) ∨ coveredByWide i (0x1000 + 4 * j + 1)) ∧
    (∀ j, (t.blk.irq j).attr ≠ (s.blk.irq j).attr → (∃ A v, i = .wrAttr A j v) ∨ coveredByWide i (0x1000 + 4 * j + 2)) ∧
    (∀ j, (t.blk.irq j).ctl ≠ (s.blk.irq j).ctl → (∃ A v, i = .wrCtl A j v) ∨ coveredByWide i (0x1000 + 4 * j + 3)) ∧
    (t.blk.cfg ≠ s.blk.cfg → ∃ A v, i = .wrCliccfg A v) ∧
    (t.blk.inttrig ≠ s.blk.inttrig → (∃ A x v, i = .wrInttrigLo A x v) ∨ ∃ A x v, i = .wrInttrigHi A x v) ∧
    t.params = s.params ∧ t.env = s.env ∧ t.pending = s.pending ∧ t.freeCount = s.freeCount

/-- A write of an enable or control byte is read back as coerced (R129, derived there). -/
def Obligations.WrittenBytesReadBackAsCoerced : Prop :=
  ∀ (s t : State) (A : Mode) (i : Nat) (v : Byte), viewUsable s A → i < s.params.numSources →
    (effMode s.params s.blk i).rank ≤ A.rank →
    (exec (.wrIe A i v) s = .next t →
      exec (.rdIe A i) t = .next { t with result := .data .b (if v = 0 then 0 else 1) }) ∧
    (exec (.wrCtl A i v) s = .next t →
      exec (.rdCtl A i) t = .next { t with
        result := .data .b ((v ||| BitVec.ofNat 8 (2 ^ (8 - s.params.ctlbits) - 1)).setWidth 64) })

/-- A tuple that is no operation is refused by name and changes nothing: the reserved view number (R16), a width that is not 1,
2, 4 or 8 (R55), a written value of more than 8n bits, a level that is not 0 or 1 (R80). Where to stop is the model's choice
(entry 20). -/
def Obligations.TuplesThatAreNoOperationAreRefused : Prop :=
  (∀ (s : State) (off n v : Nat),
      runOp (.read 2 off n) s = .refused (.notAnOperation .reservedView) ∧
      runOp (.write 2 off n v) s = .refused (.notAnOperation .reservedView)) ∧
  (∀ (s : State) (A : Mode) (off n v : Nat), n ≠ 1 → n ≠ 2 → n ≠ 4 → n ≠ 8 →
      runOp (.read A.code off n) s = .refused (.notAnOperation .noSuchWidth) ∧
      runOp (.write A.code off n v) s = .refused (.notAnOperation .noSuchWidth)) ∧
  (∀ (s : State) (A : Mode) (off v : Nat) (n : Width), 2 ^ (8 * n.bytes) ≤ v →
      runOp (.write A.code off n.bytes v) s = .refused (.notAnOperation .valueTooWide)) ∧
  (∀ (s : State) (i L : Nat), 2 ≤ L → runOp (.line i L) s = .refused (.notAnOperation .noSuchLevel))

/-- `hart_id`, `version`, `shv_enabled` and `jump_table` are read by no instruction (R238, decision D24): with other values of
them every instruction but construction gives the same outcome, carrying them along, and construction the very same one. -/
def Obligations.CarriedParametersAreReadByNothing : Prop :=
  ∀ (s : State) (hart : Nat) (ver : Version) (shv jmp : Bool),
    (∀ i : Instr, (∀ a, i ≠ .create a) → exec i (s.carrying hart ver shv jmp) =
      match exec i s with
      | .next t => .next (t.carrying hart ver shv jmp)
      | .fault f => .fault f
      | .refused r => .refused r) ∧
    ∀ a : CreateArgs, exec (.create a) (s.carrying hart ver shv jmp) = exec (.create a) s
end

