-- ==== Sys2Proof/Laws/State.lean ====
section
/-! SUPPORT. One lemma for each field of each update of the state and of the block: proofs cite these and unfold no record update. -/

namespace Sys2Proof.Machine

section Complete
variable (s : State) (b : Block) (r : Result) (l : List ErrorKind)
@[simp] theorem complete_params : (s.complete b r l).params = s.params := rfl
@[simp] theorem complete_blk : (s.complete b r l).blk = b := rfl
@[simp] theorem complete_env : (s.complete b r l).env = s.env := rfl
@[simp] theorem complete_pending : (s.complete b r l).pending = s.pending := rfl
@[simp] theorem complete_result : (s.complete b r l).result = r := rfl
@[simp] theorem complete_log : (s.complete b r l).log = l := rfl
@[simp] theorem complete_freeCount : (s.complete b r l).freeCount = s.freeCount := rfl
end Complete

section Restart
variable (s : State) (P : Params)
@[simp] theorem restart_params : (s.restart P).params = P := rfl
@[simp] theorem restart_blk : (s.restart P).blk = Block.reset (Config.exccodeAtReset s.freeCount) := rfl
@[simp] theorem restart_env : (s.restart P).env = s.env := rfl
@[simp] theorem restart_pending : (s.restart P).pending = s.pending := rfl
@[simp] theorem restart_result : (s.restart P).result = .nothing := rfl
@[simp] theorem restart_log : (s.restart P).log = [] := rfl
@[simp] theorem restart_freeCount : (s.restart P).freeCount = s.freeCount + 1 := rfl
end Restart

section Sample
variable (s : State) (q : Request) (rest : List Request)
@[simp] theorem sample_params : (s.sample q rest).params = s.params := rfl
@[simp] theorem sample_blk : (s.sample q rest).blk = s.blk := rfl
@[simp] theorem sample_env : (s.sample q rest).env = q.env := rfl
@[simp] theorem sample_pending : (s.sample q rest).pending = rest := rfl
@[simp] theorem sample_result : (s.sample q rest).result = s.result := rfl
@[simp] theorem sample_log : (s.sample q rest).log = s.log := rfl
@[simp] theorem sample_freeCount : (s.sample q rest).freeCount = s.freeCount := rfl
end Sample

section SetIrq
variable (b : Block) (i : Nat) (r : IrqRegs)
@[simp] theorem setIrq_irqs : (b.setIrq i r).irqs = irqSet b.irqs i r := rfl
@[simp] theorem setIrq_cfg : (b.setIrq i r).cfg = b.cfg := rfl
@[simp] theorem setIrq_inttrig : (b.setIrq i r).inttrig = b.inttrig := rfl
@[simp] theorem setIrq_exccode : (b.setIrq i r).exccode = b.exccode := rfl
@[simp] theorem setIrq_cpuLine : (b.setIrq i r).cpuLine = b.cpuLine := rfl
end SetIrq

section SetFields
variable (b : Block) (i : Nat) (f : Bool) (v : Byte)
@[simp] theorem setIp_cfg : (b.setIp i f).cfg = b.cfg := rfl
@[simp] theorem setIp_inttrig : (b.setIp i f).inttrig = b.inttrig := rfl
@[simp] theorem setIp_exccode : (b.setIp i f).exccode = b.exccode := rfl
@[simp] theorem setIp_cpuLine : (b.setIp i f).cpuLine = b.cpuLine := rfl
@[simp] theorem setIe_cfg : (b.setIe i f).cfg = b.cfg := rfl
@[simp] theorem setIe_inttrig : (b.setIe i f).inttrig = b.inttrig := rfl
@[simp] theorem setIe_exccode : (b.setIe i f).exccode = b.exccode := rfl
@[simp] theorem setIe_cpuLine : (b.setIe i f).cpuLine = b.cpuLine := rfl
@[simp] theorem setAttr_cfg : (b.setAttr i v).cfg = b.cfg := rfl
@[simp] theorem setAttr_inttrig : (b.setAttr i v).inttrig = b.inttrig := rfl
@[simp] theorem setAttr_exccode : (b.setAttr i v).exccode = b.exccode := rfl
@[simp] theorem setAttr_cpuLine : (b.setAttr i v).cpuLine = b.cpuLine := rfl
@[simp] theorem setCtl_cfg : (b.setCtl i v).cfg = b.cfg := rfl
@[simp] theorem setCtl_inttrig : (b.setCtl i v).inttrig = b.inttrig := rfl
@[simp] theorem setCtl_exccode : (b.setCtl i v).exccode = b.exccode := rfl
@[simp] theorem setCtl_cpuLine : (b.setCtl i v).cpuLine = b.cpuLine := rfl
end SetFields

end Sys2Proof.Machine
end

