-- ==== Sys2Proof/Laws/IrqFile.lean ====
section
/-! SUPPORT. The per-IRQ register file: read after write, and the canonical form kept. -/

namespace Sys2Proof.Machine

theorem irqGet_insert_same (i : Nat) (r : IrqRegs) (f : List (Nat × IrqRegs)) : irqGet (irqInsert i r f) i = r := by
  induction f with
  | nil => simp [irqInsert, irqGet]
  | cons p rest ih =>
    obtain ⟨k, q⟩ := p
    unfold irqInsert
    split
    · simp [irqGet]
    · split
      · simp [irqGet]
      · simp [irqGet, ih, show k ≠ i from fun h => ‹¬ i = k› h.symm]

theorem irqGet_insert_ne {i j : Nat} (h : j ≠ i) (r : IrqRegs) (f : List (Nat × IrqRegs)) :
    irqGet (irqInsert i r f) j = irqGet f j := by
  induction f with
  | nil => simp [irqInsert, irqGet, h.symm]
  | cons p rest ih =>
    obtain ⟨k, q⟩ := p
    unfold irqInsert
    split
    · simp [irqGet, h.symm]
    · split
      · subst_vars; simp [irqGet, h.symm]
      · simp only [irqGet, ih]

theorem irqGet_filter_same (i : Nat) (f : List (Nat × IrqRegs)) :
    irqGet (f.filter (fun p => p.1 != i)) i = IrqRegs.reset := by
  induction f with
  | nil => rfl
  | cons p rest ih =>
    by_cases h : p.1 = i
    · simp [h, ih]
    · simp [h, irqGet, ih]

theorem irqGet_filter_ne {i j : Nat} (h : j ≠ i) (f : List (Nat × IrqRegs)) :
    irqGet (f.filter (fun p => p.1 != i)) j = irqGet f j := by
  induction f with
  | nil => rfl
  | cons p rest ih =>
    by_cases hp : p.1 = i
    · simp [hp, irqGet, ih, show i ≠ j from h.symm]
    · simp [hp, irqGet, ih]

/-- Read after write, the same IRQ. -/
@[simp] theorem irqGet_set_same (f : List (Nat × IrqRegs)) (i : Nat) (r : IrqRegs) : irqGet (irqSet f i r) i = r := by
  unfold irqSet
  split
  · simp [irqGet_filter_same, *]
  · exact irqGet_insert_same i r f

/-- Read after write, another IRQ. -/
theorem irqGet_set_ne (f : List (Nat × IrqRegs)) {i j : Nat} (h : j ≠ i) (r : IrqRegs) :
    irqGet (irqSet f i r) j = irqGet f j := by
  unfold irqSet
  split
  · exact irqGet_filter_ne h f
  · exact irqGet_insert_ne h r f

theorem mem_irqInsert {i : Nat} {r : IrqRegs} {f : List (Nat × IrqRegs)} {p : Nat × IrqRegs}
    (h : p ∈ irqInsert i r f) : p = (i, r) ∨ p ∈ f := by
  induction f with
  | nil => simpa [irqInsert] using h
  | cons q rest ih =>
    obtain ⟨k, q⟩ := q
    unfold irqInsert at h
    split at h
    · simpa using h
    · split at h
      · simp only [List.mem_cons] at h ⊢; tauto
      · simp only [List.mem_cons] at h ⊢; tauto

/-- What a write of the file can list: the entry written, or an entry that was listed. -/
theorem mem_irqSet {f : List (Nat × IrqRegs)} {i : Nat} {r : IrqRegs} {p : Nat × IrqRegs} (h : p ∈ irqSet f i r) :
    (p = (i, r) ∧ r ≠ IrqRegs.reset) ∨ p ∈ f := by
  unfold irqSet at h
  split at h
  · exact .inr (List.mem_of_mem_filter h)
  · rcases mem_irqInsert h with h | h
    · exact .inl ⟨h, ‹_›⟩
    · exact .inr h

theorem pairwise_irqInsert (i : Nat) (r : IrqRegs) {f : List (Nat × IrqRegs)} (h : f.Pairwise (fun p q => p.1 < q.1)) :
    (irqInsert i r f).Pairwise (fun p q => p.1 < q.1) := by
  induction f with
  | nil => simp [irqInsert]
  | cons p rest ih =>
    obtain ⟨k, q⟩ := p
    rw [List.pairwise_cons] at h
    unfold irqInsert
    split
    · refine List.pairwise_cons.2 ⟨?_, List.pairwise_cons.2 h⟩
      intro x hx
      rcases List.mem_cons.1 hx with rfl | hx
      · assumption
      · exact lt_trans ‹i < k› (h.1 x hx)
    · split
      · subst_vars; exact List.pairwise_cons.2 h
      · refine List.pairwise_cons.2 ⟨?_, ih h.2⟩
        intro x hx
        rcases mem_irqInsert hx with rfl | hx
        · show k < i; omega
        · exact h.1 x hx

/-- A write keeps the canonical form. -/
theorem irqsWf_set {n : Nat} {f : List (Nat × IrqRegs)} {i : Nat} (h : irqsWf n f) (hi : i < n) (r : IrqRegs) :
    irqsWf n (irqSet f i r) := by
  constructor
  · unfold irqSet
    split
    · exact h.1.filter _
    · exact pairwise_irqInsert i r h.1
  · intro p hp
    rcases mem_irqSet hp with ⟨rfl, hr⟩ | hp
    · exact ⟨hr, hi⟩
    · exact h.2 p hp

/-- The reset file has the canonical form. -/
theorem irqsWf_reset (n : Nat) (x : BitVec 22) : irqsWf n (Block.reset x).irqs := by simp [irqsWf, Block.reset]

theorem irqGet_of_mem {f : List (Nat × IrqRegs)} (h : f.Pairwise (fun p q => p.1 < q.1)) {p : Nat × IrqRegs} (hp : p ∈ f) :
    irqGet f p.1 = p.2 := by
  induction f with
  | nil => simp at hp
  | cons q rest ih =>
    rw [List.pairwise_cons] at h
    rcases List.mem_cons.1 hp with rfl | hp
    · simp [irqGet]
    · simp [irqGet, ih h.2 hp, (h.1 p hp).ne]

theorem mem_of_irqGet_ne {f : List (Nat × IrqRegs)} {i : Nat} (h : irqGet f i ≠ IrqRegs.reset) : (i, irqGet f i) ∈ f := by
  induction f with
  | nil => exact absurd rfl h
  | cons q rest ih =>
    obtain ⟨k, q⟩ := q
    unfold irqGet at h ⊢
    split at h
    · subst_vars; simp
    · rw [if_neg ‹_›]; exact List.mem_cons_of_mem _ (ih h)

/-- An IRQ holds its reset values or is listed with its registers. -/
theorem irqGet_cases (f : List (Nat × IrqRegs)) (i : Nat) : irqGet f i = IrqRegs.reset ∨ (i, irqGet f i) ∈ f := by
  by_cases h : irqGet f i = IrqRegs.reset
  · exact .inl h
  · exact .inr (mem_of_irqGet_ne h)

@[simp] theorem setIrq_irq_same (b : Block) (i : Nat) (r : IrqRegs) : (b.setIrq i r).irq i = r := irqGet_set_same _ _ _

theorem setIrq_irq_ne (b : Block) {i j : Nat} (h : j ≠ i) (r : IrqRegs) : (b.setIrq i r).irq j = b.irq j :=
  irqGet_set_ne _ h _

/-- The registers of every IRQ after a write of one. -/
theorem setIrq_irq (b : Block) (i j : Nat) (r : IrqRegs) : (b.setIrq i r).irq j = if j = i then r else b.irq j := by
  split
  · subst_vars; simp
  · exact setIrq_irq_ne b ‹_› r

@[simp] theorem setIp_irq (b : Block) (i j : Nat) (f : Bool) :
    (b.setIp i f).irq j = if j = i then { b.irq i with ip := f } else b.irq j := setIrq_irq _ _ _ _
@[simp] theorem setIe_irq (b : Block) (i j : Nat) (f : Bool) :
    (b.setIe i f).irq j = if j = i then { b.irq i with ie := f } else b.irq j := setIrq_irq _ _ _ _
@[simp] theorem setAttr_irq (b : Block) (i j : Nat) (v : Byte) :
    (b.setAttr i v).irq j = if j = i then { b.irq i with attr := v } else b.irq j := setIrq_irq _ _ _ _
@[simp] theorem setCtl_irq (b : Block) (i j : Nat) (v : Byte) :
    (b.setCtl i v).irq j = if j = i then { b.irq i with ctl := v } else b.irq j := setIrq_irq _ _ _ _

end Sys2Proof.Machine
end

