-- ==== Sys2Proof/Laws/Arbiter.lean ====
section
/-! SUPPORT. What the active set holds, and everything an arbitration can do. -/

namespace Sys2Proof.Machine

theorem sortActive_perm (l : List Entry) : (sortActive l).Perm l := List.perm_insertionSort _ l

theorem sortActive_pairwise (l : List Entry) : (sortActive l).Pairwise (fun x y => entryKey y ≤ entryKey x) := by
  have : Std.Total (fun x y : Entry => entryKey y ≤ entryKey x) := ⟨fun x y => Nat.le_total _ _⟩
  have : IsTrans Entry (fun x y : Entry => entryKey y ≤ entryKey x) := ⟨fun _ _ _ h h' => Nat.le_trans h' h⟩
  exact List.pairwise_insertionSort _ l

theorem mem_sortActive {l : List Entry} {e : Entry} : e ∈ sortActive l ↔ e ∈ l := (sortActive_perm l).mem_iff

/-- An entry of the active set stands for an enabled IRQ and carries its current `intcfg`. -/
theorem mem_activeSet {P : Params} {b : Block} (h : b.irqs.Pairwise (fun p q => p.1 < q.1)) {e : Entry} :
    e ∈ activeSet P b ↔ (b.irq e.irq).ie = true ∧ e.cfg = intcfgOf P b e.irq := by
  unfold activeSet
  rw [mem_sortActive, List.mem_map]
  constructor
  · rintro ⟨p, hp, rfl⟩
    rw [List.mem_filter] at hp
    exact ⟨by simp [Block.irq, irqGet_of_mem h hp.1, hp.2], rfl⟩
  · rintro ⟨he, hc⟩
    have hr : irqGet b.irqs e.irq ≠ IrqRegs.reset := by
      intro hr; simp [Block.irq, hr, IrqRegs.reset] at he
    exact ⟨(e.irq, irqGet b.irqs e.irq), List.mem_filter.2 ⟨mem_of_irqGet_ne hr, he⟩, by cases e; simp_all⟩

/-- What the scan selects: an entry of the list, pending and not stopped; the entries before it are not stopped either and
not pending. -/
theorem scan_some {P : Params} {E : Env} {b : Block} {l : List Entry} {e : Entry} (h : scan P E b l = some e) :
    ∃ l₁ l₂, l = l₁ ++ e :: l₂ ∧ (b.irq e.irq).ip = true ∧ stops E (entryMode e.cfg) (entryLevel P b.cfg e) = false ∧
      ∀ x ∈ l₁, (b.irq x.irq).ip = false ∧ stops E (entryMode x.cfg) (entryLevel P b.cfg x) = false := by
  induction l with
  | nil => simp [scan] at h
  | cons x rest ih =>
    unfold scan at h
    split at h
    · cases h
    · split at h
      · cases h
        exact ⟨[], rest, rfl, ‹_›, by simpa using ‹¬ _ = true›, by simp⟩
      · obtain ⟨l₁, l₂, rfl, hp, hs, hb⟩ := ih h
        refine ⟨x :: l₁, l₂, rfl, hp, hs, ?_⟩
        intro y hy
        rcases List.mem_cons.1 hy with rfl | hy
        · exact ⟨by simpa using ‹¬ (b.irq _).ip = true›, by simpa using ‹¬ stops _ _ _ = true›⟩
        · exact hb y hy

/-- The scan finds nothing when it stops, or when no entry is pending. -/
theorem scan_none {P : Params} {E : Env} {b : Block} {l : List Entry} (h : scan P E b l = none) :
    (∃ l₁ e l₂, l = l₁ ++ e :: l₂ ∧ stops E (entryMode e.cfg) (entryLevel P b.cfg e) = true ∧
        ∀ x ∈ l₁, (b.irq x.irq).ip = false) ∨ ∀ x ∈ l, (b.irq x.irq).ip = false := by
  induction l with
  | nil => simp
  | cons x rest ih =>
    unfold scan at h
    split at h
    · exact .inl ⟨[], x, rest, rfl, ‹_›, by simp⟩
    · split at h
      · cases h
      · have hx : (b.irq x.irq).ip = false := by simpa using ‹¬ (b.irq _).ip = true›
        rcases ih h with ⟨l₁, e, l₂, rfl, hs, hb⟩ | hb
        · exact .inl ⟨x :: l₁, e, l₂, rfl, hs, by simpa [hx] using hb⟩
        · exact .inr (by simpa [hx] using hb)

/-- The scan depends on the entries, `cfg` and the pending bits only. -/
theorem scan_congr {P : Params} {E : Env} {b c : Block} (hc : b.cfg = c.cfg) {l : List Entry}
    (h : ∀ e ∈ l, (b.irq e.irq).ip = (c.irq e.irq).ip) : scan P E b l = scan P E c l := by
  induction l with
  | nil => rfl
  | cons x rest ih =>
    simp only [scan, hc, h x List.mem_cons_self, ih (fun e he => h e (List.mem_cons_of_mem _ he))]

section Post
variable (P : Params) (b : Block) (e : Entry)
@[simp] theorem post_cfg : (post P b e).cfg = b.cfg := by unfold post; split <;> rfl
@[simp] theorem post_inttrig : (post P b e).inttrig = b.inttrig := by unfold post; split <;> rfl
@[simp] theorem post_exccode :
    (post P b e).exccode = encodeExccode e.irq (entryMode e.cfg) (entryLevel P b.cfg e) := rfl
@[simp] theorem post_cpuLine : (post P b e).cpuLine = true := rfl
theorem post_irqs :
    (post P b e).irqs = if autoClears (b.irq e.irq).attr then (b.setIp e.irq false).irqs else b.irqs := by
  unfold post; split <;> rfl
/-- The registers after a post: one pending bit cleared, or none. -/
theorem post_irq (j : Nat) :
    (post P b e).irq j =
      if j = e.irq ∧ autoClears (b.irq e.irq).attr = true then { b.irq j with ip := false } else b.irq j := by
  unfold Block.irq
  rw [post_irqs]
  by_cases h : autoClears (b.irq e.irq).attr = true
  · simp only [Block.irq] at h
    simp only [Block.irq, h, if_true, and_true]
    have := setIp_irq b e.irq j false
    simp only [Block.irq] at this
    rw [this]
    split
    · subst_vars; rfl
    · rfl
  · simp only [Block.irq] at h
    simp [Block.irq, h]
end Post

/-- Everything an arbitration can do: nothing, or post the entry the scan selects. -/
theorem arbitrate_cases (P : Params) (E : Env) (b : Block) :
    (scan P E b (activeSet P b) = none ∧ arbitrate P E b = b) ∨
      ∃ e, scan P E b (activeSet P b) = some e ∧ arbitrate P E b = post P b e := by
  unfold arbitrate
  split
  · exact .inl ⟨‹_›, rfl⟩
  · exact .inr ⟨_, ‹_›, rfl⟩

section Arbitrate
variable (P : Params) (E : Env) (b : Block)
@[simp] theorem arbitrate_cfg : (arbitrate P E b).cfg = b.cfg := by
  obtain ⟨-, h⟩ | ⟨e, -, h⟩ := arbitrate_cases P E b <;> simp [h]
@[simp] theorem arbitrate_inttrig : (arbitrate P E b).inttrig = b.inttrig := by
  obtain ⟨-, h⟩ | ⟨e, -, h⟩ := arbitrate_cases P E b <;> simp [h]
@[simp] theorem arbitrate_ie (j : Nat) : ((arbitrate P E b).irq j).ie = (b.irq j).ie := by
  obtain ⟨-, h⟩ | ⟨e, -, h⟩ := arbitrate_cases P E b <;> simp only [h, post_irq]
  split <;> rfl
@[simp] theorem arbitrate_attr (j : Nat) : ((arbitrate P E b).irq j).attr = (b.irq j).attr := by
  obtain ⟨-, h⟩ | ⟨e, -, h⟩ := arbitrate_cases P E b <;> simp only [h, post_irq]
  split <;> rfl
@[simp] theorem arbitrate_ctl (j : Nat) : ((arbitrate P E b).irq j).ctl = (b.irq j).ctl := by
  obtain ⟨-, h⟩ | ⟨e, -, h⟩ := arbitrate_cases P E b <;> simp only [h, post_irq]
  split <;> rfl
@[simp] theorem effMode_arbitrate (j : Nat) : effMode P (arbitrate P E b) j = effMode P b j := by simp [effMode]
@[simp] theorem visible_arbitrate (A : Mode) (j : Nat) : visible P (arbitrate P E b) A j = visible P b A j := by
  simp [visible]
theorem arbitrate_cpuLine (h : b.cpuLine = true) : (arbitrate P E b).cpuLine = true := by
  obtain ⟨-, h'⟩ | ⟨e, -, h'⟩ := arbitrate_cases P E b <;> simp [h', h]
end Arbitrate

/-- A written entry keeps the block's invariants when its attribute byte is legal. -/
theorem blockInv_setIrq {P : Params} {b : Block} (h : blockInv P b) {i : Nat} (hi : i < P.numSources) {r : IrqRegs}
    (hr : attrLegal P r.attr) : blockInv P (b.setIrq i r) := by
  refine ⟨irqsWf_set h.1 hi r, ?_, h.2.2⟩
  intro p hp
  rcases mem_irqSet hp with ⟨rfl, -⟩ | hp
  · exact hr
  · exact h.2.1 p hp

/-- The attribute byte of every IRQ is legal, listed or not. -/
theorem attrLegal_of_inv {P : Params} {b : Block} (h : blockInv P b) (i : Nat) : attrLegal P (b.irq i).attr := by
  rcases irqGet_cases b.irqs i with hr | hm
  · simp only [Block.irq, hr]
    exact ⟨by decide, .inl (by decide)⟩
  · exact h.2.1 _ hm

/-- A post keeps the block's invariants. -/
theorem blockInv_post {P : Params} {b : Block} (h : blockInv P b) {e : Entry} (he : e.irq < P.numSources) :
    blockInv P (post P b e) := by
  have hc : blockInv P (b.setIp e.irq false) := blockInv_setIrq h he (attrLegal_of_inv h _)
  refine ⟨?_, ?_, by simpa using h.2.2.1, by simpa using h.2.2.2⟩
  · rw [post_irqs]; split
    · exact hc.1
    · exact h.1
  · rw [post_irqs]; split
    · exact hc.2.1
    · exact h.2.1

/-- An IRQ of the active set exists. -/
theorem irq_lt_of_mem_activeSet {P : Params} {b : Block} (h : irqsWf P.numSources b.irqs) {e : Entry}
    (he : e ∈ activeSet P b) : e.irq < P.numSources := by
  rw [mem_activeSet h.1] at he
  have hr : irqGet b.irqs e.irq ≠ IrqRegs.reset := by
    intro hr; simp [Block.irq, hr, IrqRegs.reset] at he
  exact (h.2 _ (mem_of_irqGet_ne hr)).2

/-- An arbitration keeps the block's invariants. -/
theorem blockInv_arbitrate {P : Params} {E : Env} {b : Block} (h : blockInv P b) : blockInv P (arbitrate P E b) := by
  obtain ⟨-, h'⟩ | ⟨e, hs, h'⟩ := arbitrate_cases P E b
  · rw [h']; exact h
  · rw [h']
    obtain ⟨l₁, l₂, hl, -⟩ := scan_some hs
    exact blockInv_post h (irq_lt_of_mem_activeSet h.1 (by rw [hl]; simp))

end Sys2Proof.Machine
end

