-- ==== Sys2Proof/Laws/Bus.lean ====
section
/-! SUPPORT. Everything a setter, a byte step and a bus operation can do. -/

namespace Sys2Proof.Machine

section Setters
variable (P : Params) (E : Env) (b : Block) (i : Nat) (v : Byte)

theorem setPending_cases : setPending P E b i v = b ∨
    (isLevel (attrTrig (b.irq i).attr) = false ∧ setPending P E b i v = arbitrate P E (b.setIp i (byteFlag v))) := by
  unfold setPending; split
  · exact .inl rfl
  · exact .inr ⟨Bool.eq_false_iff.2 ‹_›, rfl⟩

theorem setEnable_cases : setEnable P E b i v = b ∨ setEnable P E b i v = arbitrate P E (b.setIe i (byteFlag v)) := by
  unfold setEnable; split
  · exact .inl rfl
  · exact .inr rfl

theorem setAttr_cases : setAttr P E b i v = b ∨
    ((attrNewMode P b i v).toNat ≤ E.priv.rank ∧ setAttr P E b i v = arbitrate P E (b.setAttr i (attrNew P b i v))) := by
  unfold setAttr; split
  · exact .inl rfl
  · split
    · exact .inl rfl
    · exact .inr ⟨by omega, rfl⟩

theorem setCtl_cases : setCtl P E b i v = b ∨ setCtl P E b i v = arbitrate P E (b.setCtl i v) := by
  unfold setCtl; split
  · exact .inl rfl
  · exact .inr rfl
end Setters

/-- The fields of the byte a write of `clicintattr` stores (R122). -/
theorem attrNew_fields (P : Params) (b : Block) (i : Nat) (v : Byte) :
    attrMode (attrNew P b i v) = attrNewMode P b i v ∧ (attrNew P b i v).extractLsb' 3 3 = 0 := by
  unfold attrMode attrNew
  generalize attrNewMode P b i v = m
  constructor
  · revert m v; decide
  · revert m v; decide

/-- A coerced mode is legal on the machine when `cfg` and the old mode are (R161). -/
theorem modeLegal_coerce {P : Params} {nm : BitVec 2} (hn : nm.toNat ≤ maxNmbits P) {old : BitVec 2} (ho : modeLegal P old)
    (raw : BitVec 2) : modeLegal P (coerceMode P nm raw old) := by
  unfold maxNmbits at hn
  unfold coerceMode
  split
  · exact .inl rfl
  · split
    · split
      · unfold lowMode
        cases hs : supports P .s <;> cases hu : supports P .u <;> simp_all [modeLegal, Mode.code]
      · exact .inl rfl
    · have h0 : nm.toNat ≠ 0 := fun h => ‹¬ nm = 0› (BitVec.eq_of_toNat_eq h)
      have h1 : nm.toNat ≠ 1 := fun h => ‹¬ nm = 1› (BitVec.eq_of_toNat_eq h)
      have hsu : supports P .s = true ∧ supports P .u = true := by
        cases hs : supports P .s <;> cases hu : supports P .u <;> simp [hs, hu] at hn ⊢ <;> omega
      split
      · exact ho
      · have : raw = 0 ∨ raw = 1 ∨ raw = 2 ∨ raw = 3 := by revert raw; decide
        rcases this with rfl | rfl | rfl | rfl <;> simp_all [modeLegal]

section Invariant
variable {P : Params} {E : Env} {b : Block} (h : blockInv P b) {i : Nat} (hi : i < P.numSources) (v : Byte)
include h hi

theorem blockInv_setPending : blockInv P (setPending P E b i v) := by
  obtain h' | ⟨-, h'⟩ := setPending_cases P E b i v <;> rw [h']
  · exact h
  · exact blockInv_arbitrate (blockInv_setIrq h hi (attrLegal_of_inv h i))

theorem blockInv_setEnable : blockInv P (setEnable P E b i v) := by
  obtain h' | h' := setEnable_cases P E b i v <;> rw [h']
  · exact h
  · exact blockInv_arbitrate (blockInv_setIrq h hi (attrLegal_of_inv h i))

theorem blockInv_setAttr : blockInv P (setAttr P E b i v) := by
  obtain h' | ⟨-, h'⟩ := setAttr_cases P E b i v <;> rw [h']
  · exact h
  · have hm := modeLegal_coerce h.2.2.1.2.2.2.1 (attrLegal_of_inv h i).2 (attrMode v)
    have hf := attrNew_fields P b i v
    exact blockInv_arbitrate (blockInv_setIrq h hi ⟨hf.2, by rw [hf.1]; exact hm⟩)

theorem blockInv_setCtl : blockInv P (setCtl P E b i v) := by
  obtain h' | h' := setCtl_cases P E b i v <;> rw [h']
  · exact h
  · exact blockInv_arbitrate (blockInv_setIrq h hi (attrLegal_of_inv h i))
end Invariant

/-- Everything a byte step of a write can leave: the block as it was, or what one setter leaves of an existing, visible IRQ. -/
theorem byteWrite_cases (P : Params) (E : Env) (A : Mode) (b : Block) (off : Nat) (v : Byte) :
    (byteWrite P E A b off v).1 = b ∨
      (irqOf off < P.numSources ∧ visible P b A (irqOf off) = true ∧
        ((byteWrite P E A b off v).1 = setPending P E b (irqOf off) v ∨
          (byteWrite P E A b off v).1 = setEnable P E b (irqOf off) v ∨
          (byteWrite P E A b off v).1 = setAttr P E b (irqOf off) v ∨
          (byteWrite P E A b off v).1 = setCtl P E b (irqOf off) v)) := by
  unfold byteWrite
  split
  · exact .inl rfl
  · split
    · exact .inl rfl
    · refine .inr ⟨by omega, by simpa using ‹¬ (!visible P b A (irqOf off)) = true›, ?_⟩
      split
      · exact .inl rfl
      · split
        · exact .inr (.inl rfl)
        · split
          · exact .inr (.inr (.inl rfl))
          · exact .inr (.inr (.inr rfl))

theorem blockInv_byteWrite {P : Params} {E : Env} {A : Mode} {b : Block} (h : blockInv P b) (off : Nat) (v : Byte) :
    blockInv P (byteWrite P E A b off v).1 := by
  obtain h' | ⟨hi, -, h' | h' | h' | h'⟩ := byteWrite_cases P E A b off v <;> rw [h']
  · exact h
  · exact blockInv_setPending h hi v
  · exact blockInv_setEnable h hi v
  · exact blockInv_setAttr h hi v
  · exact blockInv_setCtl h hi v

/-- What every byte step keeps, a write of several bytes keeps. -/
theorem lanesWrite_keeps {P : Params} {E : Env} {A : Mode} (motive : Block → Prop)
    (step : ∀ b off v, motive b → motive (byteWrite P E A b off v).1) :
    ∀ (k : Nat) (b : Block) (off : Nat) (v : DWord), motive b → motive (lanesWrite P E A k b off v).1
  | 0, _, _, _, h => h
  | k + 1, _, _, _, h => lanesWrite_keeps motive step k _ _ _ (step _ _ _ h)

/-- A byte step leaves `cfg`, the trigger registers and the other IRQs' enable, attribute and control registers alone. -/
theorem byteWrite_frame (P : Params) (E : Env) (A : Mode) (b : Block) (off : Nat) (v : Byte) :
    (byteWrite P E A b off v).1.cfg = b.cfg ∧ (byteWrite P E A b off v).1.inttrig = b.inttrig ∧
      ∀ j, j ≠ irqOf off → ((byteWrite P E A b off v).1.irq j).ie = (b.irq j).ie ∧
        ((byteWrite P E A b off v).1.irq j).attr = (b.irq j).attr ∧
        ((byteWrite P E A b off v).1.irq j).ctl = (b.irq j).ctl := by
  obtain h' | ⟨-, -, h' | h' | h' | h'⟩ := byteWrite_cases P E A b off v <;> rw [h']
  · simp
  · obtain h | ⟨-, h⟩ := setPending_cases P E b (irqOf off) v <;> rw [h] <;> simp +contextual
  · obtain h | h := setEnable_cases P E b (irqOf off) v <;> rw [h] <;> simp +contextual
  · obtain h | ⟨-, h⟩ := setAttr_cases P E b (irqOf off) v <;> rw [h] <;> simp +contextual
  · obtain h | h := setCtl_cases P E b (irqOf off) v <;> rw [h] <;> simp +contextual

/-- A bus read that answers a next state: the view and the privilege are those of the machine, and only what is given back
and logged changes. -/
theorem busRead_next {A : Mode} {off : Nat} {n : Width} {s t : State} (h : busRead A off n s = .next t) :
    supports s.params A = true ∧ supports s.params s.env.priv = true ∧
      ∃ v log, mmioRead s.params s.env s.blk A off n = some (v, log) ∧ t = s.complete s.blk (.data n v) log := by
  unfold busRead at h
  split at h
  · cases h
  · split at h
    · cases h
    · split at h
      · cases h
      · cases h; simp_all

/-- A bus write that answers a next state. -/
theorem busWrite_next {A : Mode} {off : Nat} {n : Width} {v : DWord} {s t : State} (h : busWrite A off n v s = .next t) :
    supports s.params A = true ∧ supports s.params s.env.priv = true ∧
      ∃ b log, mmioWrite s.params s.env s.blk A off n v = some (b, log) ∧ t = s.complete b .nothing log := by
  unfold busWrite at h
  split at h
  · cases h
  · split at h
    · cases h
    · split at h
      · cases h
      · cases h; simp_all

/-- A bus read in the domain, computed. -/
theorem busRead_eq {A : Mode} {off : Nat} {n : Width} {s : State} {v : DWord} {log : List ErrorKind}
    (hA : supports s.params A = true) (hp : supports s.params s.env.priv = true)
    (h : mmioRead s.params s.env s.blk A off n = some (v, log)) :
    busRead A off n s = .next (s.complete s.blk (.data n v) log) := by
  simp [busRead, hA, hp, h]

/-- A bus write in the domain, computed. -/
theorem busWrite_eq {A : Mode} {off : Nat} {n : Width} {v : DWord} {s : State} {b : Block} {log : List ErrorKind}
    (hA : supports s.params A = true) (hp : supports s.params s.env.priv = true)
    (h : mmioWrite s.params s.env s.blk A off n v = some (b, log)) :
    busWrite A off n v s = .next (s.complete b .nothing log) := by
  simp [busWrite, hA, hp, h]

end Sys2Proof.Machine
end

