-- ==== Sys2Proof/Laws/Decode.lean ====
section
/-! SUPPORT. The small laws of the decoder and the encoder. -/

namespace Sys2Proof

@[simp] theorem Mode.ofCode_code (A : Mode) : Mode.ofCode A.code = some A := by cases A <;> decide

theorem Mode.code_of_ofCode {c : BitVec 2} {A : Mode} (h : Mode.ofCode c = some A) : A.code = c := by
  revert c A; decide

@[simp] theorem Width.ofBytes_bytes (n : Width) : Width.ofBytes n.bytes = some n := by cases n <;> decide

theorem Width.bytes_of_ofBytes {k : Nat} {n : Width} (h : Width.ofBytes k = some n) : n.bytes = k := by
  unfold Width.ofBytes at h
  split at h
  · cases h; subst_vars; rfl
  · split at h
    · cases h; subst_vars; rfl
    · split at h
      · cases h; subst_vars; rfl
      · split at h <;> cases h; subst_vars; rfl

@[simp] theorem irqOf_irqOff {i r : Nat} (h : r < 4) : irqOf (irqOff i r) = i := by unfold irqOf irqOff; omega

@[simp] theorem selOf_irqOff {i r : Nat} (h : r < 4) : selOf (irqOff i r) = r := by unfold selOf irqOff; omega

theorem irqOff_ge (i r : Nat) : 0x1000 ≤ irqOff i r := by unfold irqOff; omega

/-- A byte offset of the per-IRQ region is that of its IRQ and its register. -/
theorem irqOff_irqOf {off : Nat} (h : 0x1000 ≤ off) : irqOff (irqOf off) (selOf off) = off := by
  unfold irqOff irqOf selOf; omega

/-- The start offset of a register selects it. -/
@[simp] theorem ctrlLookup_offset (r : CtrlReg) : ctrlLookup r.offset = some r := by
  cases r with
  | cliccfg => rfl
  | inttrigLo x => revert x; decide
  | inttrigHi x => revert x; decide

theorem ctrlOffset_lt (r : CtrlReg) : r.offset < 0x1000 := by
  cases r with
  | cliccfg => decide
  | inttrigLo x => have := x.isLt; simp only [CtrlReg.offset]; omega
  | inttrigHi x => have := x.isLt; simp only [CtrlReg.offset]; omega

theorem ctrlOffset_aligned (r : CtrlReg) : r.offset % 4 = 0 := by
  cases r <;> simp only [CtrlReg.offset] <;> omega

/-- Only the start offset of a register selects it (R82). -/
theorem offset_of_ctrlLookup {off : Nat} {r : CtrlReg} (h : ctrlLookup off = some r) : off = r.offset := by
  unfold ctrlLookup at h
  split at h
  · cases h; assumption
  · split at h
    · cases h; simp only [CtrlReg.offset, BitVec.toNat_ofNat]; omega
    · split at h
      · cases h; simp only [CtrlReg.offset, BitVec.toNat_ofNat]; omega
      · cases h

/-- The offsets that select nothing (R189, R190). -/
theorem ctrlLookup_none {off : Nat} (h0 : off ≠ 0) (h : ¬ (0x40 ≤ off ∧ off ≤ 0xBF ∧ off % 4 = 0)) :
    ctrlLookup off = none := by
  unfold ctrlLookup
  rw [if_neg h0, if_neg (by omega), if_neg (by omega)]

end Sys2Proof
end

