-- ==== Sys2Proof/Laws/Access.lean ====
section
/-! SUPPORT. The bus operations computed, access by access: one lemma for each outcome of R180 and R181. -/

namespace Sys2Proof.Machine

theorem laneLow_byte (v : Byte) : laneLow (v.setWidth 64) = v := by simp [laneLow]

variable {P : Params} {E : Env} {b : Block} {A : Mode} {off : Nat} {n : Width} {v : DWord}

theorem mmioRead_denied (h : E.priv.rank < A.rank) : mmioRead P E b A off n = some (0, [.privilegeDenied]) := by
  simp [mmioRead, h]

theorem mmioWrite_denied (h : E.priv.rank < A.rank) : mmioWrite P E b A off n v = some (b, [.privilegeDenied]) := by
  simp [mmioWrite, h]

theorem mmioRead_misaligned (h : A.rank ≤ E.priv.rank) (ho : off % n.bytes ≠ 0) :
    mmioRead P E b A off n = some (0, [.misalignedAccess]) := by
  simp [mmioRead, h, ho]

theorem mmioWrite_misaligned (h : A.rank ≤ E.priv.rank) (ho : off % n.bytes ≠ 0) :
    mmioWrite P E b A off n v = some (b, [.misalignedAccess]) := by
  simp [mmioWrite, h, ho]

theorem mmioRead_ctrl (h : A.rank ≤ E.priv.rank) (ho : off % n.bytes = 0) (hl : off < 0x1000) :
    mmioRead P E b A off n = ctrlRead P b A off n := by
  simp [mmioRead, h, ho, hl]

theorem mmioWrite_ctrl (h : A.rank ≤ E.priv.rank) (ho : off % n.bytes = 0) (hl : off < 0x1000) :
    mmioWrite P E b A off n v = ctrlWrite P b A off n v := by
  simp [mmioWrite, h, ho, hl]

theorem mmioRead_perIrq (h : A.rank ≤ E.priv.rank) (ho : off % n.bytes = 0) (hl : 0x1000 ≤ off) :
    mmioRead P E b A off n = some (lanesRead P b A n.bytes off) := by
  simp [mmioRead, h, ho, show ¬ off < 4096 by omega]

theorem mmioWrite_perIrq (h : A.rank ≤ E.priv.rank) (ho : off % n.bytes = 0) (hl : 0x1000 ≤ off) :
    mmioWrite P E b A off n v = some (lanesWrite P E A n.bytes b off v) := by
  simp [mmioWrite, h, ho, show ¬ off < 4096 by omega]

/-- A byte read of the per-IRQ region. -/
theorem mmioRead_byte (h : A.rank ≤ E.priv.rank) (hl : 0x1000 ≤ off) :
    mmioRead P E b A off .b = some ((byteRead P b A off).1.setWidth 64, (byteRead P b A off).2) := by
  rw [mmioRead_perIrq h (by simp [Width.bytes, Nat.mod_one]) hl]
  simp [Width.bytes, lanesRead, laneJoin]

/-- A byte write of the per-IRQ region. -/
theorem mmioWrite_byte (h : A.rank ≤ E.priv.rank) (hl : 0x1000 ≤ off) (w : Byte) :
    mmioWrite P E b A off .b (w.setWidth 64) = some (byteWrite P E A b off w) := by
  rw [mmioWrite_perIrq h (by simp [Width.bytes, Nat.mod_one]) hl]
  simp [Width.bytes, lanesWrite, laneLow_byte]

/-- A 4-byte read of a control register. -/
theorem mmioRead_reg (h : A.rank ≤ E.priv.rank) (r : CtrlReg) :
    mmioRead P E b A r.offset .w = ctrlRead P b A r.offset .w :=
  mmioRead_ctrl h (ctrlOffset_aligned r) (ctrlOffset_lt r)

/-- A 4-byte write of a control register. -/
theorem mmioWrite_reg (h : A.rank ≤ E.priv.rank) (r : CtrlReg) :
    mmioWrite P E b A r.offset .w v = ctrlWrite P b A r.offset .w v :=
  mmioWrite_ctrl h (ctrlOffset_aligned r) (ctrlOffset_lt r)

/-- The byte steps of a missing IRQ (R203). -/
theorem byteRead_missing (h : P.numSources ≤ irqOf off) : byteRead P b A off = (0, [.invalidIrq]) := by
  simp [byteRead, h]

theorem byteWrite_missing (h : P.numSources ≤ irqOf off) (w : Byte) : byteWrite P E A b off w = (b, [.invalidIrq]) := by
  simp [byteWrite, h]

theorem visible_iff : visible P b A off = true ↔ (effMode P b off).rank ≤ A.rank := by simp [visible]

/-- The byte steps of an invisible IRQ (R163). -/
theorem byteRead_invisible (hi : irqOf off < P.numSources) (h : A.rank < (effMode P b (irqOf off)).rank) :
    byteRead P b A off = (0, []) := by
  simp [byteRead, visible, hi, h]

theorem byteWrite_invisible (hi : irqOf off < P.numSources) (h : A.rank < (effMode P b (irqOf off)).rank) (w : Byte) :
    byteWrite P E A b off w = (b, []) := by
  simp [byteWrite, visible, hi, h]

section Visible
variable {i : Nat} (hi : i < P.numSources) (h : (effMode P b i).rank ≤ A.rank)
include hi h

theorem byteRead_ip : byteRead P b A (irqOff i 0) = (getPending b i, []) := by simp [byteRead, visible, hi, h]
theorem byteRead_ie : byteRead P b A (irqOff i 1) = (getEnable b i, []) := by simp [byteRead, visible, hi, h]
theorem byteRead_attr : byteRead P b A (irqOff i 2) = (getAttr b i, []) := by simp [byteRead, visible, hi, h]
theorem byteRead_ctl : byteRead P b A (irqOff i 3) = (getCtl P b i, []) := by simp [byteRead, visible, hi, h]
theorem byteWrite_ip (w : Byte) : byteWrite P E A b (irqOff i 0) w = (setPending P E b i w, []) := by
  simp [byteWrite, visible, hi, h]
theorem byteWrite_ie (w : Byte) : byteWrite P E A b (irqOff i 1) w = (setEnable P E b i w, []) := by
  simp [byteWrite, visible, hi, h]
theorem byteWrite_attr (w : Byte) : byteWrite P E A b (irqOff i 2) w = (setAttr P E b i w, []) := by
  simp [byteWrite, visible, hi, h]
theorem byteWrite_ctl (w : Byte) : byteWrite P E A b (irqOff i 3) w = (setCtl P E b i w, []) := by
  simp [byteWrite, visible, hi, h]
end Visible

/-- A byte read through a usable view, as an outcome. -/
theorem busRead_byte {s : State} (h : viewUsable s A) (hl : 0x1000 ≤ off) :
    busRead A off .b s =
      .next (s.complete s.blk (.data .b ((byteRead s.params s.blk A off).1.setWidth 64)) (byteRead s.params s.blk A off).2) :=
  busRead_eq h.1 h.2.1 (mmioRead_byte h.2.2 hl)

/-- A byte write through a usable view, as an outcome. -/
theorem busWrite_byte {s : State} (h : viewUsable s A) (hl : 0x1000 ≤ off) (w : Byte) :
    busWrite A off .b (w.setWidth 64) s =
      .next (s.complete (byteWrite s.params s.env A s.blk off w).1 .nothing (byteWrite s.params s.env A s.blk off w).2) :=
  busWrite_eq h.1 h.2.1 (mmioWrite_byte h.2.2 hl w)

end Sys2Proof.Machine
end

