-- ==== Sys2Proof/Laws/ActiveSet.lean ====
section
/-! SUPPORT. The order of the active set, and the arbiter's stop test in terms of modes and levels. -/

namespace Sys2Proof.Machine

theorem encodePriority_toNat (c : BitVec 10) (irq : Nat) : (encodePriority c irq).toNat = c.toNat * 4096 + irq % 4096 := by
  unfold encodePriority
  rw [BitVec.toNat_append, ← Nat.shiftLeft_add_eq_or_of_lt (BitVec.isLt _), Nat.shiftLeft_eq, BitVec.toNat_ofNat]

theorem intcfg_toNat (E : Mode) (c : Byte) : (intcfg E c).toNat = E.rank * 256 + c.toNat := by
  unfold intcfg
  rw [BitVec.toNat_append, ← Nat.shiftLeft_add_eq_or_of_lt c.isLt, Nat.shiftLeft_eq]
  rfl

theorem rank_inj {a b : Mode} (h : a.rank = b.rank) : a = b := by
  cases a <;> cases b <;> first | rfl | exact absurd h (by decide)

@[simp] theorem entryMode_intcfg (E : Mode) (c : Byte) : entryMode (intcfg E c) = E := by cases E <;> revert c <;> decide

@[simp] theorem setWidth_intcfg (E : Mode) (c : Byte) : (intcfg E c).setWidth 8 = c := by cases E <;> revert c <;> decide

@[simp] theorem entryMode_intcfgOf (P : Params) (b : Block) (i : Nat) : entryMode (intcfgOf P b i) = effMode P b i := by
  simp [intcfgOf]

@[simp] theorem entryLevel_intcfgOf (P : Params) (b : Block) (i : Nat) :
    entryLevel P b.cfg ⟨intcfgOf P b i, i⟩ = levelOf P b i := by
  simp [entryLevel, intcfgOf, levelOf]

/-- Every entry carries the current `intcfg` of its IRQ, whatever the file looks like. -/
theorem cfg_of_mem_activeSet {P : Params} {b : Block} {e : Entry} (he : e ∈ activeSet P b) : e.cfg = intcfgOf P b e.irq := by
  unfold activeSet at he
  rw [mem_sortActive, List.mem_map] at he
  obtain ⟨p, _, rfl⟩ := he
  rfl

/-- The key of an entry names it, for IRQ numbers of 12 bits (R107). -/
theorem entryKey_inj {x y : Entry} (hx : x.irq < 4096) (hy : y.irq < 4096) (h : entryKey x = entryKey y) : x = y := by
  unfold entryKey at h
  rw [encodePriority_toNat, encodePriority_toNat, Nat.mod_eq_of_lt hx, Nat.mod_eq_of_lt hy] at h
  have e₁ : x.irq = y.irq := by omega
  have e₂ : x.cfg = y.cfg := BitVec.eq_of_toNat_eq (by omega)
  cases x; cases y; simp_all

theorem activeSet_nodup {P : Params} {b : Block} (h : b.irqs.Pairwise (fun p q => p.1 < q.1)) : (activeSet P b).Nodup := by
  unfold activeSet
  rw [(sortActive_perm _).nodup_iff, List.Nodup, List.pairwise_map]
  refine (h.filter _).imp ?_
  intro p q hpq he
  have : p.1 = q.1 := by injection he
  omega

/-- The active set is strictly sorted (R140). -/
theorem activeSet_strict {P : Params} {b : Block} (hP : P.numSources ≤ 4096) (h : irqsWf P.numSources b.irqs) :
    (activeSet P b).Pairwise (fun x y => entryKey y < entryKey x) := by
  have h₁ : (activeSet P b).Pairwise (fun x y => entryKey y ≤ entryKey x) := sortActive_pairwise _
  have h₂ : (activeSet P b).Pairwise (fun x y => x ≠ y) := activeSet_nodup h.1
  have hlt : ∀ e ∈ activeSet P b, e.irq < 4096 := fun e he => lt_of_lt_of_le (irq_lt_of_mem_activeSet h he) hP
  refine (List.Pairwise.and_mem.1 (h₁.and h₂)).imp ?_
  rintro x y ⟨hx, hy, hle, hne⟩
  exact lt_of_le_of_ne hle fun he => hne (entryKey_inj (hlt x hx) (hlt y hy) he.symm)

/-- Two strictly sorted lists with the same entries are equal. -/
theorem eq_of_strict {l₁ l₂ : List Entry} (h₁ : l₁.Pairwise (fun x y => entryKey y < entryKey x))
    (h₂ : l₂.Pairwise (fun x y => entryKey y < entryKey x)) (hm : ∀ e, e ∈ l₁ ↔ e ∈ l₂) : l₁ = l₂ := by
  have n₁ : l₁.Nodup := h₁.imp (by intro x y h e; subst e; omega)
  have n₂ : l₂.Nodup := h₂.imp (by intro x y h e; subst e; omega)
  exact ((List.perm_ext_iff_of_nodup n₁ n₂).2 hm).eq_of_pairwise (fun a b _ _ h h' => absurd h (by omega)) h₁ h₂

theorem floorOf_toNat (E : Env) (mode : Mode) :
    (floorOf E mode).toNat = max (E.xil.get mode).toNat (E.thresh.get mode).toNat := by
  unfold floorOf
  split <;> rename_i h <;> rw [BitVec.le_def] at h <;> omega

/-- When the scan does not stop at an entry (R212). -/
theorem stops_false {E : Env} {mode : Mode} {lvl : Byte} :
    stops E mode lvl = false ↔ E.priv.rank ≤ mode.rank ∧ (mode = E.priv → (floorOf E mode).toNat ≤ lvl.toNat) := by
  unfold stops
  simp only [Bool.or_eq_false_iff, decide_eq_false_iff_not, Bool.and_eq_false_iff, beq_eq_false_iff_ne, BitVec.lt_def]
  constructor
  · rintro ⟨h₁, h₂⟩
    refine ⟨by omega, fun h => ?_⟩
    rcases h₂ with h₂ | h₂
    · exact absurd h h₂
    · omega
  · rintro ⟨h₁, h₂⟩
    refine ⟨by omega, ?_⟩
    by_cases h : mode = E.priv
    · exact .inr (by have := h₂ h; omega)
    · exact .inl h

/-- The trigger registers play no part in an arbitration (R219). -/
theorem arbitrate_of_inttrig (P : Params) (E : Env) (b : Block) (trig : Vector Word 32) :
    arbitrate P E { b with inttrig := trig } = { arbitrate P E b with inttrig := trig } := by
  have ha : activeSet P { b with inttrig := trig } = activeSet P b := rfl
  have hs : scan P E { b with inttrig := trig } (activeSet P b) = scan P E b (activeSet P b) :=
    scan_congr (b := { b with inttrig := trig }) (c := b) rfl (fun _ _ => rfl)
  unfold arbitrate
  rw [ha, hs]
  split
  · rfl
  · rename_i e _
    unfold post
    by_cases h : autoClears (b.irq e.irq).attr = true
    · rw [if_pos (show autoClears (({ b with inttrig := trig } : Block).irq e.irq).attr = true from h), if_pos h]; rfl
    · rw [if_neg (show ¬ autoClears (({ b with inttrig := trig } : Block).irq e.irq).attr = true from h), if_neg h]

end Sys2Proof.Machine
end

