-- ==== Sys2Proof/Laws/Flags.lean ====
section
/-! SUPPORT. The trigger predicates on the two bits of R102, and the line table of R150 in terms of them. -/

namespace Sys2Proof.Machine

theorem isEdge_trigOfBits (b : BitVec 2) : isEdge (trigOfBits b) = (b &&& 1 == 1) := by revert b; decide

theorem isLevel_trigOfBits (b : BitVec 2) : isLevel (trigOfBits b) = (b &&& 1 == 0) := by revert b; decide

theorem isNeg_trigOfBits (b : BitVec 2) : isNeg (trigOfBits b) = (b >>> 1 == 1) := by revert b; decide

/-- The line table (R150): a level-triggered pending bit is the level corrected for polarity; an edge-triggered one is set at
the active level and left alone at the other. -/
theorem lineCell_eq (t : Trig) (L : Bool) :
    lineCell t L = if isLevel t then some (L != isNeg t) else if L != isNeg t then some true else none := by
  cases t <;> cases L <;> rfl

end Sys2Proof.Machine
end

