-- ==== Sys2Proof/Laws/PerInstr.lean ====
section
/-! SUPPORT. One statement for each instruction: the tuple of a well-formed instruction is within the formats of
30_encoding.md R80. -/

namespace Sys2Proof.Laws

/-- The fields of a tuple are within the ranges of R80: a view that is a mode, a width of R55, a value of `8n` bits, a level
that is 0 or 1. -/
def inFormat : RawOp → Prop
  | .read view _ n => view ≠ 2 ∧ (n = 1 ∨ n = 2 ∨ n = 4 ∨ n = 8)
  | .write view _ n v => view ≠ 2 ∧ (n = 1 ∨ n = 2 ∨ n = 4 ∨ n = 8) ∧ v < 2 ^ (8 * n)
  | .line _ level => level ≤ 1
  | .arbitrate => True
  | .cpuAccept => True
  | .create _ => True
  | .reset => True

theorem code_ne_two (A : Mode) : A.code ≠ 2 := by cases A <;> decide

theorem bytes_in_format (n : Width) : n.bytes = 1 ∨ n.bytes = 2 ∨ n.bytes = 4 ∨ n.bytes = 8 := by cases n <;> decide

/-- The statement for one instruction. -/
def Encodes.Statement (i : Instr) : Prop := WellFormed i = true → inFormat (encode i)

theorem Encodes.rdCliccfg (A : Mode) : Encodes.Statement (.rdCliccfg A) := fun _ => ⟨code_ne_two A, by decide⟩
theorem Encodes.wrCliccfg (A : Mode) (v : Word) : Encodes.Statement (.wrCliccfg A v) :=
  fun _ => ⟨code_ne_two A, by decide, v.isLt⟩
theorem Encodes.rdInttrigLo (A : Mode) (x : BitVec 4) : Encodes.Statement (.rdInttrigLo A x) :=
  fun _ => ⟨code_ne_two A, by decide⟩
theorem Encodes.wrInttrigLo (A : Mode) (x : BitVec 4) (v : Word) : Encodes.Statement (.wrInttrigLo A x v) :=
  fun _ => ⟨code_ne_two A, by decide, v.isLt⟩
theorem Encodes.rdInttrigHi (A : Mode) (x : BitVec 4) : Encodes.Statement (.rdInttrigHi A x) :=
  fun _ => ⟨code_ne_two A, by decide⟩
theorem Encodes.wrInttrigHi (A : Mode) (x : BitVec 4) (v : Word) : Encodes.Statement (.wrInttrigHi A x v) :=
  fun _ => ⟨code_ne_two A, by decide, v.isLt⟩
theorem Encodes.rdIp (A : Mode) (i : Nat) : Encodes.Statement (.rdIp A i) := fun _ => ⟨code_ne_two A, by decide⟩
theorem Encodes.wrIp (A : Mode) (i : Nat) (v : Byte) : Encodes.Statement (.wrIp A i v) :=
  fun _ => ⟨code_ne_two A, by decide, v.isLt⟩
theorem Encodes.rdIe (A : Mode) (i : Nat) : Encodes.Statement (.rdIe A i) := fun _ => ⟨code_ne_two A, by decide⟩
theorem Encodes.wrIe (A : Mode) (i : Nat) (v : Byte) : Encodes.Statement (.wrIe A i v) :=
  fun _ => ⟨code_ne_two A, by decide, v.isLt⟩
theorem Encodes.rdAttr (A : Mode) (i : Nat) : Encodes.Statement (.rdAttr A i) := fun _ => ⟨code_ne_two A, by decide⟩
theorem Encodes.wrAttr (A : Mode) (i : Nat) (v : Byte) : Encodes.Statement (.wrAttr A i v) :=
  fun _ => ⟨code_ne_two A, by decide, v.isLt⟩
theorem Encodes.rdCtl (A : Mode) (i : Nat) : Encodes.Statement (.rdCtl A i) := fun _ => ⟨code_ne_two A, by decide⟩
theorem Encodes.wrCtl (A : Mode) (i : Nat) (v : Byte) : Encodes.Statement (.wrCtl A i v) :=
  fun _ => ⟨code_ne_two A, by decide, v.isLt⟩
theorem Encodes.rdWide (A : Mode) (off : Nat) (n : Width) : Encodes.Statement (.rdWide A off n) :=
  fun _ => ⟨code_ne_two A, bytes_in_format n⟩
theorem Encodes.wrWide (A : Mode) (off : Nat) (n : Width) (v : DWord) : Encodes.Statement (.wrWide A off n v) := by
  intro h
  simp only [WellFormed, Bool.and_eq_true, decide_eq_true_eq] at h
  exact ⟨code_ne_two A, bytes_in_format n, h.2⟩
theorem Encodes.line (i : Nat) (level : Bool) : Encodes.Statement (.line i level) :=
  fun _ => by cases level <;> simp [encode, inFormat]
theorem Encodes.arb : Encodes.Statement .arb := fun _ => trivial
theorem Encodes.ack : Encodes.Statement .ack := fun _ => trivial
theorem Encodes.create (a : CreateArgs) : Encodes.Statement (.create a) := fun _ => trivial
theorem Encodes.reset : Encodes.Statement .reset := fun _ => trivial

end Sys2Proof.Laws
end

