-- ==== Sys2Proof/Tests/Slice0.lean ====
section
/-! SUPPORT. The model's own tests. Expected values come from spec/95_test_vectors.md (the vector is named in the comment) or
are worked from the rule named; the witnesses show that the hypotheses of each statement can be met. -/

namespace Sys2Proof.Tests

open Sys2Proof.Machine

/-! ### Small machines -/

/-- M-only, 16 sources, 3 control bits. -/
def pM : Params := { Params.scenario with numSources := 16 }

/-- M+S+U, 32 sources, 4 control bits (the parameters of Program 2). -/
def pMSU : Params := { Params.scenario with numSources := 32, ctlbits := 4, sclicbase := 0x03000000, uclicbase := 0x04000000 }

/-- The reset state with other parameters, `cliccfg` and listed IRQs, at a privilege. -/
def mach (P : Params) (c : Cfg) (irqs : List (Nat × IrqRegs)) (priv : Mode) : State :=
  { State.reset with params := P, blk := { Block.reset 0 with cfg := c, irqs := irqs }, env := { Env.start with priv := priv } }

/-- The `cliccfg` of Program 2. -/
def cfg2 : Cfg := { mnlbits := 4, snlbits := 2, unlbits := 1, nmbits := 2 }

/-- An M-only machine after reset. -/
def mReset : State := mach pM Cfg.reset [] .m

/-- IRQ 9 a vectored positive edge, IRQ 12 a positive level, both enabled and pending, M-only. -/
def mTwo : State := mach pM Cfg.reset [(9, ⟨true, true, 0xC3, 0xBF⟩), (12, ⟨true, true, 0xC0, 0x3F⟩)] .m

/-- IRQ 12 a positive level, enabled, pending, M-only. -/
def mLevel : State := mach pM Cfg.reset [(12, ⟨true, true, 0xC0, 0x3F⟩)] .m

/-- The IRQs of Program 2 at a privilege: 3 of mode S, 4 of mode U, 7 of mode M, enabled. -/
def three (priv : Mode) : State :=
  mach pMSU cfg2 [(3, ⟨false, true, 0x40, 0x90⟩), (4, ⟨false, true, 0x03, 0x70⟩), (7, ⟨false, true, 0xC0, 0x10⟩)] priv

/-- What holds of the next state, false where there is none. -/
def nextIs (o : Host.Outcome State Fault Refusal) (p : State → Bool) : Bool :=
  match o with
  | .next t => p t
  | .fault _ => false
  | .refused _ => false

/-- What an instruction gives back. -/
def gives (i : Instr) (s : State) (r : Result) : Bool := nextIs (exec i s) fun t => decide (t.result = r)

/-- The registers of an IRQ after an instruction. -/
def leaves (i : Instr) (s : State) (irq : Nat) (r : IrqRegs) : Bool := nextIs (exec i s) fun t => decide (t.blk.irq irq = r)

/-- What an instruction has posted. -/
def posts (i : Instr) (s : State) (x : BitVec 22) : Bool :=
  nextIs (exec i s) fun t => decide (t.blk.exccode = x) && t.blk.cpuLine

/-! ### WellFormed refuses ill-formed terms (R54, R55, R56, R80) -/

theorem test_wf_byte_width : WellFormed (.rdWide .m 0x1000 .b) = false := by decide
theorem test_wf_control_region : WellFormed (.rdWide .m 0x0FF8 .d) = false := by decide
theorem test_wf_misaligned : WellFormed (.wrWide .m 0x1002 .w 0) = false := by decide
theorem test_wf_value_too_wide : WellFormed (.wrWide .m 0x1002 .h 0x10000) = false := by decide
theorem test_wf_widest : WellFormed (.wrWide .m 0x1000 .d 0xFFFFFFFFFFFFFFFF) = true := by decide

/-! ### Decoding: the tuples of 95_test_vectors.md -/

theorem test_decode_cliccfg : decode (.write 3 0x0000 4 0x00000038) = .instr (.wrCliccfg .m 0x38) ∧
    decode (.read 1 0x0000 4) = .instr (.rdCliccfg .s) := by decide
theorem test_decode_inttrig : decode (.write 3 0x0040 4 0xFFFFFFFF) = .instr (.wrInttrigLo .m 0 0xFFFFFFFF) ∧
    decode (.read 1 0x00BC 4) = .instr (.rdInttrigHi .s 15) ∧ decode (.read 3 0x007C 4) = .instr (.rdInttrigLo .m 15) ∧
    decode (.write 3 0x0080 4 0) = .instr (.wrInttrigHi .m 0 0) := by decide
theorem test_decode_ip : decode (.write 3 0x1064 1 0x01) = .instr (.wrIp .m 25 0x01) ∧
    decode (.read 0 0x1010 1) = .instr (.rdIp .u 4) := by decide
theorem test_decode_ie : decode (.write 3 0x1069 1 0x01) = .instr (.wrIe .m 26 0x01) ∧
    decode (.read 1 0x100D 1) = .instr (.rdIe .s 3) := by decide
theorem test_decode_attr : decode (.write 3 0x1032 1 0x44) = .instr (.wrAttr .m 12 0x44) ∧
    decode (.read 3 0x1032 1) = .instr (.rdAttr .m 12) := by decide
theorem test_decode_ctl : decode (.write 3 0x1033 1 0x21) = .instr (.wrCtl .m 12 0x21) ∧
    decode (.read 3 0x1033 1) = .instr (.rdCtl .m 12) := by decide
theorem test_decode_wide : decode (.write 1 0x1030 4 0x55555555) = .instr (.wrWide .s 0x1030 .w 0x55555555) ∧
    decode (.read 3 0x1068 8) = .instr (.rdWide .m 0x1068 .d) := by decide
theorem test_decode_signals : decode (.line 30 0) = .instr (.line 30 false) ∧ decode .arbitrate = .instr .arb ∧
    decode .cpuAccept = .instr .ack ∧ decode .reset = .instr .reset := by decide
/-- V6.1: accesses no row names. -/
theorem test_decode_unlisted : decode (.read 3 0x1001 2) = .unlisted (.read .m 0x1001 .h) ∧
    decode (.write 3 0x0008 4 0xFF) = .unlisted (.write .m 0x0008 .w 0xFF) := by decide
/-- R16, R55, R80. -/
theorem test_decode_rejects : decode (.read 2 0x1000 1) = .rejected .reservedView ∧
    decode (.read 3 0x1000 3) = .rejected .noSuchWidth ∧ decode (.write 3 0x1000 1 0x100) = .rejected .valueTooWide ∧
    decode (.line 0 2) = .rejected .noSuchLevel := by decide
/-- The rows' words: offset bits of the control region, selector bits of the per-IRQ region (R95; entry 2). -/
theorem test_table_words : decodeTableWord 16 0x0000 = some (.rdCliccfg .m) ∧ decodeTableWord 16 0x0040 = some (.rdInttrigLo .m 0) ∧
    decodeTableWord 16 0x00BC = some (.rdInttrigHi .m 15) ∧ decodeTableWord 8 3 = some (.rdCtl .m 0) := by decide
/-- The next step runs a table word's instruction. -/
theorem test_fetch_word : nextIs (step (State.reset.withFetchWord 8 3)) (fun t => decide (t.result = .data .b 0x1F)) = true := by
  decide

/-! ### One step of each instruction -/

/-- Program 2, lines 11, 12. -/
theorem test_rdCliccfg : gives (.rdCliccfg .s) (three .s) (.data .w 0x01020000) = true ∧
    gives (.rdCliccfg .u) (three .s) (.data .w 0x01000000) = true := by decide
/-- S6. -/
theorem test_wrCliccfg : nextIs (exec (.wrCliccfg .m 0x38) mReset)
    (fun t => decide (t.blk.cfg = { mnlbits := 8, snlbits := 0, unlbits := 0, nmbits := 0 })) = true := by decide
/-- V5.4: all fields illegal. -/
theorem test_wrCliccfg_illegal : nextIs (exec (.wrCliccfg .m 0xFFFFFFFF) (three .m)) (fun t => decide (t.blk.cfg = cfg2)) = true := by
  decide
/-- V6.2. -/
theorem test_wrInttrigLo : nextIs (exec (.wrInttrigLo .m 0 0xFFFFFFFF) mReset)
    (fun t => decide (t.blk.inttrig.get 0 = 0xC0001FFF)) = true := by decide
theorem test_wrInttrigHi : nextIs (exec (.wrInttrigHi .m 15 0x80000019) mReset)
    (fun t => decide (t.blk.inttrig.get 31 = 0x80000019)) = true := by decide
/-- V6.2: the read of a register a write left. -/
theorem test_rdInttrig :
    gives (.rdInttrigLo .m 1) { mReset with blk := { mReset.blk with inttrig := mReset.blk.inttrig.set 1 0x80000019 } }
      (.data .w 0x80000019) = true ∧
    gives (.rdInttrigHi .s 15) { three .m with blk := { (three .m).blk with inttrig := mReset.blk.inttrig.set 31 0xC0001FFF } }
      (.data .w 0xC0001FFF) = true := by decide
theorem test_rdIp : gives (.rdIp .m 12) mLevel (.data .b 1) = true := by decide
/-- V2: a write to a level-triggered IRQ is ignored. -/
theorem test_wrIp_level : leaves (.wrIp .m 12 0x00) mLevel 12 ⟨true, true, 0xC0, 0x3F⟩ = true := by decide
/-- V2: any non-zero byte sets an edge-triggered IRQ's bit. -/
theorem test_wrIp_edge :
    leaves (.wrIp .m 12 0x80) (mach pM Cfg.reset [(12, ⟨false, false, 0xC7, 0x00⟩)] .m) 12 ⟨true, false, 0xC7, 0x00⟩ = true := by decide
theorem test_rdIe : gives (.rdIe .s 3) (three .s) (.data .b 1) = true := by decide
/-- S5: the enable delivers and consumes. -/
theorem test_wrIe : leaves (.wrIe .m 9 0x01) (mach pM Cfg.reset [(9, ⟨true, false, 0xC3, 0x00⟩)] .m) 9 ⟨false, true, 0xC3, 0x00⟩ = true ∧
    posts (.wrIe .m 9 0x01) (mach pM Cfg.reset [(9, ⟨true, false, 0xC3, 0x00⟩)] .m) 0x3FF009 = true := by decide
/-- V5.1 and V3: the stored byte is shown as stored. -/
theorem test_rdAttr : gives (.rdAttr .s 4) (three .s) (.data .b 0x03) = true := by decide
/-- S2. -/
theorem test_wrAttr_coerced : leaves (.wrAttr .m 12 0x44) mReset 12 ⟨false, false, 0xC4, 0x00⟩ = true := by decide
/-- Program 2, line 18: mode M at priv S is dropped. -/
theorem test_wrAttr_dropped : leaves (.wrAttr .s 3 0xC0) (three .s) 3 ⟨false, true, 0x40, 0x90⟩ = true := by decide
/-- V7.7. -/
theorem test_rdCtl : gives (.rdCtl .m 12) (mach pM Cfg.reset [(12, ⟨false, false, 0xC0, 0x21⟩)] .m) (.data .b 0x3F) = true := by decide
/-- S1. -/
theorem test_wrCtl : leaves (.wrCtl .m 12 0x21) mReset 12 ⟨false, false, 0xC0, 0x21⟩ = true := by decide
/-- Program 2, lines 13, 14. -/
theorem test_rdWide : gives (.rdWide .s 0x101C .w) (three .s) (.data .w 0x00000000) = true ∧
    gives (.rdWide .s 0x100C .w) (three .s) (.data .w 0x9F400100) = true := by decide
/-- V6.3: byte 0 is judged under the old trigger. -/
theorem test_wrWide : leaves (.wrWide .m 0x1024 .w 0xBFC30101) mReset 9 ⟨false, true, 0xC3, 0xBF⟩ = true := by decide
/-- Program 3, line 19: the first byte delivers and consumes, the second disables. -/
theorem test_wrWide_order : nextIs (exec (.wrWide .m 0x1020 .d 0xFFC1010020C20001)
      (mach pM Cfg.reset [(8, ⟨false, true, 0xC3, 0x3F⟩)] .m))
    (fun t => decide (t.blk.irq 8 = ⟨false, false, 0xC2, 0x20⟩) && decide (t.blk.irq 9 = ⟨false, true, 0xC1, 0xFF⟩) &&
      decide (t.blk.exccode = 0x3FF008)) = true := by decide
/-- V4, the cells of a positive and a negative edge. -/
theorem test_line_edges : leaves (.line 9 false) (mach pM Cfg.reset [(9, ⟨true, false, 0xC2, 0⟩)] .m) 9 ⟨true, false, 0xC2, 0⟩ = true ∧
    leaves (.line 9 false) (mach pM Cfg.reset [(9, ⟨false, false, 0xC6, 0⟩)] .m) 9 ⟨true, false, 0xC6, 0⟩ = true := by decide
/-- Program 2, line 32: a higher mode is not masked by a level. -/
theorem test_line_posts : posts (.line 3 true) { three .u with env := ⟨.u, ⟨0x7F, 0, 0⟩, ⟨0, 0, 0⟩⟩ } 0x2FD003 = true := by decide
/-- The order of R107 on two candidates; S5's auto-clear. -/
theorem test_arb : posts .arb mTwo 0x3FF009 = true ∧ leaves .arb mTwo 9 ⟨false, true, 0xC3, 0xBF⟩ = true := by decide
/-- V7.4: a level below the floor of the hart's mode stops the scan. -/
theorem test_arb_masked : nextIs (exec .arb { mach pM { Cfg.reset with mnlbits := 8 } [(2, ⟨true, true, 0xC2, 0x1F⟩)] .m with
      env := ⟨.m, ⟨0, 0, 0x10⟩, ⟨0, 0, 0x81⟩⟩ }) (fun t => !t.blk.cpuLine) = true := by decide
/-- V8.1. -/
theorem test_ack : gives .ack { mReset with blk := { mReset.blk with exccode := 0x3FF019, cpuLine := true } } (.accepted 0x3FF019) = true ∧
    nextIs (exec .ack { mReset with blk := { mReset.blk with exccode := 0x3FF019, cpuLine := true } })
      (fun t => !t.blk.cpuLine) = true := by decide
/-- V8: construction that succeeds and construction that fails. -/
theorem test_create : nextIs (exec (.create ⟨0x02000000, 0, 0, 0, 4096, 3, "v0.9"⟩) mTwo)
    (fun t => decide (t.params.numSources = 4096) && decide (t.params.ctlbits = 3) && decide (t.params.version = .v09) &&
      decide (t.params.mclicbase = 0x02000000) && t.blk.irqs.isEmpty) = true := by decide
theorem test_create_fails : exec (.create ⟨0x02000800, 0, 0, 0, 4096, 3, "v0.9"⟩) mReset = .fault .badConfig ∧
    exec (.create ⟨0x02000000, 0, 0, 0, 4096, 9, "v0.9"⟩) mReset = .fault .badConfig ∧
    exec (.create ⟨0x02000000, 0, 0, 0, 4096, 3, "v0.8"⟩) mReset = .fault .badConfig := ⟨rfl, rfl, rfl⟩
/-- V8.2. -/
theorem test_reset : leaves .reset mTwo 9 IrqRegs.reset = true ∧ nextIs (exec .reset mTwo) (fun t => !t.blk.cpuLine) = true := by decide
/-- V6.1. -/
theorem test_unlisted : nextIs (runOp (.read 3 0x1001 2) mReset)
      (fun t => decide (t.result = .data .h 0) && decide (t.log = [.misalignedAccess])) = true ∧
    nextIs (runOp (.write 3 0x0008 4 0xFF) mReset) (fun t => decide (t.log = [.outOfRange])) = true := by decide

/-! ### Codec values (V1) -/

/-- R102: parity gives edge or level, the high bit gives the polarity. -/
theorem test_trig : [0, 1, 2, 3].map (fun b => isEdge (trigOfBits b)) = [false, true, false, true] ∧
    [0, 1, 2, 3].map (fun b => isLevel (trigOfBits b)) = [true, false, true, false] ∧
    [0, 1, 2, 3].map (fun b => isNeg (trigOfBits b)) = [false, false, true, true] := by decide
theorem test_level : level 0xA5 4 6 = 0xAF ∧ level 0xBF 1 3 = 0xFF ∧ level 0x10 4 4 = 0x1F ∧ level 0x00 8 8 = 0x00 := by decide
theorem test_priority : priority 0x90 2 4 = 0x7F ∧ priority 0x70 1 4 = 0xFF ∧ priority 0xA5 0 8 = 0xA5 := by decide
theorem test_keys : encodePriority (intcfg .m 0xBF) 25 = 0x3BF019 ∧ encodePriority (intcfg .s 0xFF) 4095 = 0x1FFFFF ∧
    encodeExccode 5 .m 0x80 = 0x203005 ∧ encodeExccode 12 .s 0x7F = 0x1FD00C := by decide
theorem test_packed : packCfg 1 2 2 4 = 0x01020024 ∧ packCfg 0 3 1 0 = 0x00030010 ∧ maskInttrig 0x3FFFE000 = 0 ∧
    encodeAttr 1 2 0 = 0x44 := by decide
/-- V3, the row of `nmbits = 1`. -/
theorem test_activeSet : activeSet pMSU { (three .m).blk with cfg := { cfg2 with nmbits := 1 } } =
    [⟨0x310, 7⟩, ⟨0x190, 3⟩, ⟨0x170, 4⟩] := by decide

/-! ### Witnesses: the hypotheses of the statements can be met -/

theorem mTwo_inv : stateInv mTwo := ⟨by decide, by decide, trivial⟩
theorem three_inv : stateInv (three .s) := ⟨by decide, by decide, trivial⟩

theorem witness_DecodeOfEncode : WellFormed (.wrWide .m 0x1068 .d 0xFFC1010020C20001) = true ∧
    WellFormed (.rdWide .u 0x1000 .h) = true := by decide
theorem witness_EncodeOfDecode : decode (.read 3 0x4FFF 1) = .instr (.rdCtl .m 4095) := by decide
/-- The ends of each of the three ranges and of the rest. -/
theorem witness_ControlOffsets : ∀ off ∈ [0x000, 0x040, 0x07C, 0x080, 0x0BC, 0x03F, 0x0C0, 0xFFF],
    off < 0x1000 ∧ 0xFFFFFFFF < 2 ^ 32 := by decide
theorem witness_ControlOffsets_clauses : BitVec.ofNat 12 0x000 &&& 0xFFF = 0x000 ∧ BitVec.ofNat 12 0x07C &&& 0xFC3 = 0x040 ∧
    BitVec.ofNat 12 0x080 &&& 0xFC3 = 0x080 ∧ BitVec.ofNat 12 0x0C0 &&& 0xFC3 ≠ 0x080 := by decide
theorem witness_PerIrqOffsets : (∀ off ∈ [0x1000, 0x1001, 0x1002, 0x1003, 0x4FFF], 0x1000 ≤ off) ∧ 0x0FFF < 0x1000 ∧ 0xFF < 2 ^ 8 := by decide
theorem witness_StepRuns :
    { State.reset with pending := [{ env := Env.start, input := .op .arbitrate }] }.pending =
      { env := Env.start, input := .op .arbitrate } :: [] ∧ decode .arbitrate = .instr .arb := by decide
theorem witness_StepWithNothing : State.reset.pending = [] := rfl
/-- The first and the last address of the S view, and no other view there. -/
theorem witness_ViewsForward_inside : ∀ addr ∈ [0x03000000, 0x0300107F], supports pMSU .s = true ∧ viewBase pMSU .s ≤ addr ∧
    addr < viewBase pMSU .s + (0x1000 + 4 * pMSU.numSources) ∧
    ∀ B ∈ [Mode.u, Mode.m], ¬ (viewBase pMSU B ≤ addr ∧ addr < viewBase pMSU B + (0x1000 + 4 * pMSU.numSources)) := by decide
/-- The address past the S view's last. -/
theorem witness_ViewsForward_outside : ∀ B ∈ [Mode.u, Mode.s, Mode.m],
    ¬ (viewBase pMSU B ≤ 0x03001080 ∧ 0x03001080 < viewBase pMSU B + (0x1000 + 4 * pMSU.numSources)) := by decide
theorem witness_Denied : supports (three .s).params .m = true ∧ supports (three .s).params (three .s).env.priv = true ∧
    (three .s).env.priv.rank < Mode.m.rank ∧ 0xFFFFFFFF < 2 ^ (8 * Width.w.bytes) := by decide
/-- In the per-IRQ region and in the control region. -/
theorem witness_Misaligned : viewUsable mReset .m ∧ 0x1001 % Width.h.bytes ≠ 0 ∧ 0x0042 % Width.w.bytes ≠ 0 ∧
    0xFFFF < 2 ^ (8 * Width.h.bytes) := by decide
/-- V6.1's offsets, with the ends of the two gaps, and a byte inside a register. -/
theorem witness_OutOfRange : viewUsable mReset .m ∧
    ∀ p ∈ [(0x0004, Width.w), (0x003C, .w), (0x00C0, .w), (0x0FFC, .w), (0x0041, .b), (0x0001, .b), (0x0FF8, .d)],
      p.1 % p.2.bytes = 0 ∧ p.1 < 0x1000 ∧ p.1 ≠ 0 ∧ ¬ (0x40 ≤ p.1 ∧ p.1 ≤ 0xBF ∧ p.1 % 4 = 0) := by decide
theorem witness_OtherWidths : viewUsable mReset .m ∧
    ∀ p ∈ [(0x0000, Width.b), (0x0040, .h), (0x0040, .d), (0x00BC, .b), (0x00B8, .d)],
      p.2 ≠ .w ∧ p.1 % p.2.bytes = 0 ∧ (p.1 = 0 ∨ (0x40 ≤ p.1 ∧ p.1 ≤ 0xBF ∧ p.1 % 4 = 0)) := by decide
theorem witness_MissingIrq : viewUsable mReset .m ∧ mReset.params.numSources ≤ 16 := by decide
theorem witness_InvisibleIrq : viewUsable (three .m) .s ∧ 7 < (three .m).params.numSources ∧
    Mode.s.rank < (effMode (three .m).params (three .m).blk 7).rank := by decide
theorem witness_OutsideDomain_view : viewOf (.rdIp .s 3) = some .s ∧ supports mReset.params .s = false := by decide
theorem witness_OutsideDomain_priv : viewOf (.rdIp .m 3) = some .m ∧ supports pM .m = true ∧
    supports (mach pM Cfg.reset [] .s).params (mach pM Cfg.reset [] .s).env.priv = false := by decide
/-- In the control region and in the per-IRQ region. -/
theorem witness_OutsideDomain_unlisted : supports mReset.params .s = false ∧ decode (.read Mode.s.code 0x0004 4) = .unlisted (.read .s 0x0004 .w) ∧
    decode (.write Mode.s.code 0x1001 2 0xFFFF) = .unlisted (.write .s 0x1001 .h 0xFFFF) ∧ 0xFFFF < 2 ^ (8 * Width.h.bytes) := by decide
/-- The first and the last line, with the attribute byte of reset and with a negative edge. -/
theorem witness_OutsideDomain_event : 0 < pM.numSources ∧ supports pM Mode.s = false ∧ ¬ lineIsNoOp IrqRegs.reset.attr true ∧
    15 < pM.numSources ∧ ¬ lineIsNoOp 0xC6 false := by decide
theorem witness_OutsideDomain_line : mReset.params.numSources ≤ 16 := by decide
/-- The ends of what an S view shares with the M view it is laid over. -/
theorem witness_OutsideDomain_overlap : ∀ P ∈ [{ pMSU with sclicbase := 0x02001000 }],
    inRegion P .m 0x02001000 ∧ inRegion P .m 0x0200107F ∧ inRegion P .s 0x02001000 ∧ inRegion P .s 0x0200107F := by decide
theorem witness_Cliccfg : viewUsable (three .m) .m ∧ viewUsable (three .s) .s ∧ viewUsable (three .u) .u := by decide
/-- The first and the last register of each half. -/
theorem witness_Clicinttrig : viewUsable mReset .m ∧ (0 : Fin 32).val = (0 : BitVec 4).toNat ∧ (15 : Fin 32).val = (15 : BitVec 4).toNat ∧
    (16 : Fin 32).val = 16 + (0 : BitVec 4).toNat ∧ (31 : Fin 32).val = 16 + (15 : BitVec 4).toNat := by decide
/-- The per-IRQ statements: the first, the last and a delegated IRQ. -/
theorem witness_PerIrq : (viewUsable (three .m) .m ∧ viewUsable (three .s) .s) ∧
    (0 < (three .m).params.numSources ∧ (effMode (three .m).params (three .m).blk 0).rank ≤ Mode.m.rank) ∧
    (31 < (three .m).params.numSources ∧ (effMode (three .m).params (three .m).blk 31).rank ≤ Mode.m.rank) ∧
    (3 < (three .s).params.numSources ∧ (effMode (three .s).params (three .s).blk 3).rank ≤ Mode.s.rank) := by decide
/-- Program 2, line 19: a written 2 keeps S. -/
theorem witness_WriteOfAttribute : (1 : BitVec 2) = coerceMode (three .s).params (three .s).blk.cfg.nmbits ((0x84 : Byte).extractLsb' 6 2)
      (((three .s).blk.irq 3).attr.extractLsb' 6 2) ∧
    (0x44 : Byte) = ((1 : BitVec 2).setWidth 8 <<< 6) ||| ((0x84 : Byte) &&& 0x07) := by decide
theorem witness_Wide : supports (three .s).params .s = true ∧ supports (three .s).params (three .s).env.priv = true ∧
    WellFormed (.rdWide .s 0x1000 .h) = true ∧ WellFormed (.wrWide .s 0x1078 .d 0xFFFFFFFFFFFFFFFF) = true := by decide
theorem witness_Line : 15 < mReset.params.numSources ∧ supports mReset.params mReset.env.priv = true := by decide
/-- The two cells that do nothing, at a `cpu.priv` the machine lacks. -/
theorem witness_Line_noOp : lineIsNoOp 0xC2 false ∧ lineIsNoOp 0xC7 true ∧ supports pM .s = false ∧
    leaves (.line 0 false) (mach pM Cfg.reset [(0, ⟨false, true, 0xC2, 0⟩)] .s) 0 ⟨false, true, 0xC2, 0⟩ = true := by decide
theorem witness_LineKeeps : stateInv mTwo ∧ ∃ t, exec (.line 12 false) mTwo = .next t := ⟨mTwo_inv, _, rfl⟩
theorem witness_ArbiterPosts : stateInv mTwo ∧ supports mTwo.params mTwo.env.priv = true ∧ eligible mTwo 9 ∧
    ∀ j, eligible mTwo j → orderKey mTwo j ≤ orderKey mTwo 9 :=
  ⟨mTwo_inv, by decide, by decide,
    fun j h => (by decide : ∀ j < 16, eligible mTwo j → orderKey mTwo j ≤ orderKey mTwo 9) j h.1 h⟩
theorem witness_ArbiterNone : stateInv (three .s) ∧ supports (three .s).params (three .s).env.priv = true ∧ ∀ j, ¬ eligible (three .s) j :=
  ⟨three_inv, by decide, fun j h => (by decide : ∀ j < 32, ¬ eligible (three .s) j) j h.1 h⟩
/-- The arbitration of `mTwo` consumes IRQ 9. -/
theorem witness_ArbiterFrame : stateInv mTwo ∧ ∃ t, exec .arb mTwo = .next t ∧ (t.blk.irq 9).ip ≠ (mTwo.blk.irq 9).ip :=
  ⟨mTwo_inv, _, rfl, by decide⟩
theorem witness_ArbiterFrame_disabled : 15 < mTwo.params.numSources ∧ (mTwo.blk.irq 15).ie = false ∧
    (⟨true, false, 0xC3, 0xFF⟩ : IrqRegs).ie = false := by decide
theorem witness_ArbitrationRepeats : ∃ t, exec .arb mLevel = .next t ∧ (∀ j, (t.blk.irq j).ip = (mLevel.blk.irq j).ip) ∧ t.blk.cpuLine = true :=
  ⟨_, rfl, fun _ => rfl, by decide⟩
/-- At privilege S the U-mode entry stops the scan; below it in the set stands another. -/
theorem witness_StoppedEntries :
    activeSet pMSU (mach pMSU cfg2 [(3, ⟨true, true, 0x40, 0x90⟩), (4, ⟨true, true, 0x03, 0x70⟩), (5, ⟨true, true, 0x03, 0x10⟩)] .s).blk =
      [⟨0x190, 3⟩] ++ ⟨0x070, 4⟩ :: [⟨0x010, 5⟩] ∧
    stops { Env.start with priv := .s } (entryMode 0x070) (entryLevel pMSU cfg2 ⟨0x070, 4⟩) = true := by decide
theorem witness_ActiveSet : stateInv mTwo ∧ activeSet mTwo.params mTwo.blk = [⟨0x3BF, 9⟩, ⟨0x33F, 12⟩] := ⟨mTwo_inv, by decide⟩
theorem witness_EnableInserts : stateInv mTwo ∧ 15 < mTwo.params.numSources ∧ (mTwo.blk.irq 15).ie = false :=
  ⟨mTwo_inv, by decide⟩
theorem witness_DisableRemoves : stateInv mTwo ∧ 9 < mTwo.params.numSources ∧ (mTwo.blk.irq 9).ie = true :=
  ⟨mTwo_inv, by decide⟩
theorem witness_EncodedPriority : 4095 < 4096 ∧ encodePriority (intcfg .m 0x3F) 26 < encodePriority (intcfg .m 0x3F) 30 := by decide
theorem witness_Level : 8 ≤ 8 ∧ min 0 8 = 0 ∧ min 8 8 = 8 ∧ (0x20 : Byte) ≤ 0x21 := by decide
theorem witness_Exccode : 4095 < 4096 ∧ encodeExccode 4095 .m 0xFF = 0x3FFFFF := by decide
/-- V5.1: S on M+S+U, U on M+U. -/
theorem witness_EffectiveMode : pMSU.sclicbase ≠ 0 ∧ effectiveMode pMSU 1 0 = .s ∧
    effectiveMode { pMSU with sclicbase := 0 } 1 1 = .u := by decide
/-- V5.2. -/
theorem witness_CoerceMode : pMSU.sclicbase ≠ 0 ∧ coerceMode pMSU 1 0 3 = 1 ∧ coerceMode { pMSU with sclicbase := 0 } 1 1 3 = 0 := by decide
/-- The ends of the ranges of R236. -/
theorem witness_Create : ∀ p ∈ [(1, 0), (4096, 8)], 1 ≤ p.1 ∧ p.1 ≤ 4096 ∧ p.2 ≤ 8 ∧ 0x02000000 % 0x1000 = 0 ∧ 0 % 0x1000 = 0 := by decide
theorem witness_Create_version : ("v0.9-jmp" : String) = "v0.9" ∨ ("v0.9-jmp" : String) = "v0.9-jmp" := by decide
/-- Each illegal argument of R236 by itself. -/
theorem witness_CreateFatal : (0 = 0) ∧ 4096 < 4097 ∧ 8 < 9 ∧ ("v0.8" ≠ "v0.9" ∧ "v0.8" ≠ "v0.9-jmp") ∧ 0x02000800 % 0x1000 ≠ 0 := by decide
theorem witness_EveryStep : stateInv (mTwo.withFetchWord 16 0x0040) ∧ ∃ t, step (mTwo.withFetchWord 16 0x0040) = .next t :=
  ⟨mTwo_inv, _, rfl⟩
/-- One operation of each row in the domain of one machine. -/
theorem witness_Domain : ∀ i ∈ [Instr.rdCliccfg .m, .wrCliccfg .s 0, .rdInttrigLo .m 0, .wrInttrigLo .u 15 0, .rdInttrigHi .m 0,
      .wrInttrigHi .m 15 0, .rdIp .m 0, .wrIp .m 31 1, .rdIe .s 3, .wrIe .m 3 1, .rdAttr .m 3, .wrAttr .m 3 0, .rdCtl .m 3, .wrCtl .m 3 0,
      .rdWide .m 0x1000 .d, .wrWide .m 0x1000 .h 0xFFFF, .line 31 true, .arb, .ack, .create ⟨0x02000000, 0, 0, 0, 4096, 8, "v0.9"⟩, .reset],
    WellFormed i = true ∧ inDomain (three .m).params (three .m).env i = true := by decide
theorem witness_Reads : isRead (.rdCtl .m 12) = true ∧ (∃ t, exec (.rdCtl .m 12) mTwo = .next t) ∧
    ∃ t, runOp (.read Mode.m.code 0x0004 Width.w.bytes) mTwo = .next t := ⟨rfl, ⟨_, rfl⟩, ⟨_, rfl⟩⟩
/-- Two machines that differ in the control byte of IRQ 7, of mode M, seen from the S view. -/
theorem witness_HiddenReads :
    sameThrough .s (mach pMSU cfg2 [(7, ⟨false, true, 0xC0, 0x10⟩)] .s) (mach pMSU cfg2 [(7, ⟨true, true, 0xC0, 0xFF⟩)] .s) ∧
    isRead (.rdWide .s 0x101C .w) = true ∧ viewOf (.rdWide .s 0x101C .w) = some .s ∧
    ∃ t, exec (.rdWide .s 0x101C .w) (mach pMSU cfg2 [(7, ⟨false, true, 0xC0, 0x10⟩)] .s) = .next t := by
  refine ⟨⟨rfl, rfl, rfl, rfl, fun i => ?_⟩, rfl, rfl, _, rfl⟩
  by_cases h : i = 7
  · subst h; exact .inr (by decide)
  · exact .inl (by simp [mach, Block.irq, irqGet, show ¬ 7 = i from fun e => h e.symm])
theorem witness_HiddenWrites : viewOf (.wrWide .s 0x1018 .d 0x55555555) = some .s ∧
    (∃ t, exec (.wrWide .s 0x1018 .d 0x55555555) (three .s) = .next t) ∧
    Mode.s.rank < (effMode (three .s).params (three .s).blk 7).rank := ⟨rfl, ⟨_, rfl⟩, by decide⟩
/-- A write that changes the mode of IRQ 3 from S to U. -/
theorem witness_NewMode : ∃ t, exec (.wrAttr .s 3 0x00) (three .s) = .next t ∧
    attrMode (t.blk.irq 3).attr ≠ attrMode ((three .s).blk.irq 3).attr := ⟨_, rfl, by decide⟩
theorem witness_LineFalls : ∃ t, exec .ack { mTwo with blk := { mTwo.blk with cpuLine := true } } = .next t ∧ t.blk.cpuLine = false :=
  ⟨_, rfl, rfl⟩
theorem witness_ExccodeChanges : stateInv mTwo ∧ ∃ t, exec (.line 12 true) mTwo = .next t ∧ t.blk.exccode ≠ mTwo.blk.exccode :=
  ⟨mTwo_inv, _, rfl, by decide⟩
/-- The first byte of a wide write posts IRQ 8, its later bytes disable it and change its control byte. -/
theorem witness_ExccodeChanges_wide : stateInv (mach pM Cfg.reset [(8, ⟨false, true, 0xC3, 0x3F⟩)] .m) ∧
    (nextIs (exec (.wrWide .m 0x1020 .w 0x20C20001) (mach pM Cfg.reset [(8, ⟨false, true, 0xC3, 0x3F⟩)] .m)) fun t =>
      decide (t.blk.exccode = encodeExccode 8 .m 0xFF) && !(t.blk.irq 8).ie) = true ∧
    coveredByWide (.wrWide .m 0x1020 .w 0x20C20001) (0x1000 + 4 * 8 + 1) :=
  ⟨⟨by decide, by decide, trivial⟩, by decide, ⟨_, _, _, _, rfl, by decide, by decide⟩⟩
/-- Each register changes by a write of its own. -/
theorem witness_RegistersChange :
    (nextIs (exec (.line 0 true) mReset) fun t => (t.blk.irq 0).ip) = true ∧
    (nextIs (exec (.wrIe .m 15 1) mReset) fun t => (t.blk.irq 15).ie) = true ∧
    (nextIs (exec (.wrAttr .m 15 1) mReset) fun t => decide ((t.blk.irq 15).attr ≠ 0xC0)) = true ∧
    (nextIs (exec (.wrWide .m 0x103E .h 0xFFC0) mReset) fun t => decide ((t.blk.irq 15).ctl ≠ 0)) = true ∧
    (nextIs (exec (.wrCliccfg .m 8) mReset) fun t => decide (t.blk.cfg ≠ mReset.blk.cfg)) = true ∧
    (nextIs (exec (.wrInttrigHi .m 15 1) mReset) fun t => decide (t.blk.inttrig ≠ mReset.blk.inttrig)) = true := by decide
theorem witness_ReadBack : viewUsable mReset .m ∧ 15 < mReset.params.numSources ∧
    (effMode mReset.params mReset.blk 15).rank ≤ Mode.m.rank ∧ (∃ t, exec (.wrIe .m 15 0x80) mReset = .next t) ∧
    ∃ t, exec (.wrCtl .m 15 0x21) mReset = .next t := ⟨by decide, by decide, by decide, ⟨_, rfl⟩, ⟨_, rfl⟩⟩
/-- Widths beside the four, the least value too wide for each, the least level that is none. -/
theorem witness_NoOperation : (∀ n ∈ [0, 3, 5, 16], n ≠ 1 ∧ n ≠ 2 ∧ n ≠ 4 ∧ n ≠ 8) ∧
    (∀ p ∈ [(Width.b, 0x100), (.h, 0x10000), (.w, 0x100000000), (.d, 0x10000000000000000)], 2 ^ (8 * p.1.bytes) ≤ p.2) ∧ 2 ≤ 2 := by decide
/-- A read that completes in a machine and in one that carries other parameters. -/
theorem witness_Carried : (∀ a, Instr.rdCtl .m 12 ≠ .create a) ∧ mTwo.carrying 1 .v09jmp true true ≠ mTwo ∧
    (∃ t, exec (.rdCtl .m 12) mTwo = .next t) ∧ ∃ t, exec (.create ⟨0x02000000, 0, 0, 0, 4096, 3, "v0.9"⟩) mTwo = .next t :=
  ⟨(fun _ h => nomatch h), by decide, ⟨_, rfl⟩, ⟨_, rfl⟩⟩

end Sys2Proof.Tests
end

section
/-! SUPPORT. A bus tuple runs the bus operation of its view, offset and width, whether a row of the table names the access
or none does (R80, R180, R181; entry 22). -/

namespace Sys2Proof.Machine

variable {A : Mode} {off v : Nat} {n : Width} {s : State}

theorem runOp_of_instr {o : RawOp} {i : Instr} (h : decode o = .instr i) : runOp o s = exec i s := by
  simp only [runOp, h]

theorem runOp_of_unlisted {o : RawOp} {a : Unlisted} (h : decode o = .unlisted a) : runOp o s = execUnlisted a s := by
  simp only [runOp, h]

theorem decode_read (A : Mode) (off : Nat) (n : Width) : decode (.read A.code off n.bytes) = decodeRead A off n := by
  simp [decode]

theorem decode_write (A : Mode) (off : Nat) (hv : v < 2 ^ (8 * n.bytes)) :
    decode (.write A.code off n.bytes v) = decodeWrite A off n v := by
  simp [decode, hv]

/-- A value that fits its register stands unchanged in the data lanes. -/
theorem setWidth_ofNat_of_lt {k : Nat} (hv : v < 2 ^ k) : (BitVec.ofNat k v).setWidth 64 = BitVec.ofNat 64 v :=
  BitVec.eq_of_toNat_eq (by simp [Nat.mod_eq_of_lt hv])

theorem decodeRead_byte (h : 0x1000 ≤ off) : decodeRead A off .b = .instr (byteReadInstr A off) := by
  unfold decodeRead byteReadInstr
  rw [if_neg (Nat.not_lt.2 h), if_pos rfl, apply_ite Decoded.instr, apply_ite Decoded.instr, apply_ite Decoded.instr]
  rfl

theorem decodeWrite_byte (h : 0x1000 ≤ off) :
    decodeWrite A off .b v = .instr (byteWriteInstr A off (BitVec.ofNat 8 v)) := by
  unfold decodeWrite byteWriteInstr
  rw [if_neg (Nat.not_lt.2 h), if_pos rfl, apply_ite Decoded.instr, apply_ite Decoded.instr, apply_ite Decoded.instr]
  rfl

/-- The row a byte read of the per-IRQ region names reads that byte (R81). -/
theorem exec_byteReadInstr (h : 0x1000 ≤ off) : exec (byteReadInstr A off) s = busRead A off .b s := by
  have hoff : irqOff ((off - 0x1000) / 4) (off % 4) = off := irqOff_irqOf h
  conv_rhs => rw [← hoff]
  unfold byteReadInstr
  split_ifs with h0 h1 h2
  · rw [h0]; rfl
  · rw [h1]; rfl
  · rw [h2]; rfl
  · rw [show off % 4 = 3 by omega]; rfl

/-- The row a byte write of the per-IRQ region names writes that byte (R81). -/
theorem exec_byteWriteInstr (h : 0x1000 ≤ off) (w : Byte) :
    exec (byteWriteInstr A off w) s = busWrite A off .b (w.setWidth 64) s := by
  have hoff : irqOff ((off - 0x1000) / 4) (off % 4) = off := irqOff_irqOf h
  conv_rhs => rw [← hoff]
  unfold byteWriteInstr
  split_ifs with h0 h1 h2
  · rw [h0]; rfl
  · rw [h1]; rfl
  · rw [h2]; rfl
  · rw [show off % 4 = 3 by omega]; rfl

/-- A read tuple is a bus read (R180). -/
theorem runOp_read (A : Mode) (off : Nat) (n : Width) (s : State) :
    runOp (.read A.code off n.bytes) s = busRead A off n s := by
  have hd := decode_read A off n
  by_cases hlow : off < 0x1000
  · by_cases hw : n = .w
    · subst hw
      cases hr : ctrlLookup off with
      | none =>
        simp only [decodeRead, hlow, hr, if_true] at hd
        exact runOp_of_unlisted hd
      | some r =>
        obtain rfl := offset_of_ctrlLookup hr
        cases r <;> simp only [decodeRead, hlow, hr, if_true] at hd <;> exact runOp_of_instr hd
    · simp only [decodeRead, hlow, hw, if_true, if_false] at hd
      exact runOp_of_unlisted hd
  · by_cases hb : n = .b
    · subst hb
      have hge := Nat.not_lt.1 hlow
      rw [runOp_of_instr (hd.trans (decodeRead_byte hge)), exec_byteReadInstr hge]
    · simp only [decodeRead, hlow, hb, if_false] at hd
      split_ifs at hd
      · exact runOp_of_instr hd
      · exact runOp_of_unlisted hd

/-- A write tuple whose value fits its width is a bus write (R181). -/
theorem runOp_write (A : Mode) (off : Nat) (s : State) (hv : v < 2 ^ (8 * n.bytes)) :
    runOp (.write A.code off n.bytes v) s = busWrite A off n (BitVec.ofNat 64 v) s := by
  have hd := decode_write A off hv
  by_cases hlow : off < 0x1000
  · by_cases hw : n = .w
    · subst hw
      cases hr : ctrlLookup off with
      | none =>
        simp only [decodeWrite, hlow, hr, if_true] at hd
        exact runOp_of_unlisted hd
      | some r =>
        obtain rfl := offset_of_ctrlLookup hr
        rw [← setWidth_ofNat_of_lt (k := 32) hv]
        cases r <;> simp only [decodeWrite, hlow, hr, if_true] at hd <;> exact runOp_of_instr hd
    · simp only [decodeWrite, hlow, hw, if_true, if_false] at hd
      exact runOp_of_unlisted hd
  · by_cases hb : n = .b
    · subst hb
      have hge := Nat.not_lt.1 hlow
      rw [runOp_of_instr (hd.trans (decodeWrite_byte hge)), exec_byteWriteInstr hge, setWidth_ofNat_of_lt (k := 8) hv]
    · simp only [decodeWrite, hlow, hb, if_false] at hd
      split_ifs at hd
      · exact runOp_of_instr hd
      · exact runOp_of_unlisted hd

/-- Settles O10: the tuple runs the bus operation of its view, whose alignment check comes before the region's decode (R62). -/
theorem misalignedAccessReadsZeroAndDropsWrites : Obligations.MisalignedAccessReadsZeroAndDropsWrites := by
  unfold Obligations.MisalignedAccessReadsZeroAndDropsWrites
  rintro s A off v n ⟨hview, hpriv, hrank⟩ hmis hv
  constructor
  · rw [runOp_read]
    exact busRead_eq hview hpriv (mmioRead_misaligned hrank hmis)
  · rw [runOp_write A off s hv]
    exact busWrite_eq hview hpriv (mmioWrite_misaligned hrank hmis)

end Sys2Proof.Machine
end

section
/-! SUPPORT. The decode of a control offset by match and mask (R82) and of a per-IRQ offset by shift and mask (R81). -/

namespace Sys2Proof.Machine

variable {off : Nat}

/-- The mask 0xFC3 keeps the bits above 5 and below 2, and clears the register number between them (R82). -/
theorem toNat_and_regMask (h : off < 0x1000) :
    (BitVec.ofNat 12 off &&& 0xFC3).toNat = 64 * (off / 64) + off % 4 := by
  have hval : (BitVec.ofNat 12 off &&& 0xFC3).toNat = off &&& 0xFC3 := by
    rw [BitVec.toNat_and, BitVec.toNat_ofNat, Nat.mod_eq_of_lt h]; rfl
  have hhigh : (off &&& 0xFC3) / 64 = off / 64 % 64 :=
    (Nat.and_div_two_pow (n := 6)).trans (Nat.and_two_pow_sub_one_eq_mod _ 6)
  have hlow : (off &&& 0xFC3) % 64 = off % 64 % 4 :=
    (Nat.and_mod_two_pow (n := 6)).trans (Nat.and_two_pow_sub_one_eq_mod _ 2)
  omega

/-- A match of the masked offset selects the aligned offsets of one block of 64 bytes. -/
theorem and_regMask_eq_iff (h : off < 0x1000) (m : BitVec 12) :
    BitVec.ofNat 12 off &&& 0xFC3 = m ↔ 64 * (off / 64) + off % 4 = m.toNat := by
  rw [← BitVec.toNat_inj, toNat_and_regMask h]

theorem and_fullMask_eq_zero_iff (h : off < 0x1000) : BitVec.ofNat 12 off &&& 0xFFF = 0x000 ↔ off = 0 := by
  rw [show (0xFFF : BitVec 12) = BitVec.allOnes 12 from rfl, BitVec.and_allOnes, ← BitVec.toNat_inj, BitVec.toNat_ofNat,
    Nat.mod_eq_of_lt h]
  rfl

/-- Bits 5:2 number the registers of a 64-byte block from its base. -/
theorem extractLsb'_regNumber {base : Nat} (h : off < 0x1000) (hb : base % 64 = 0) (hle : base ≤ off) :
    (BitVec.ofNat 12 off).extractLsb' 2 4 = BitVec.ofNat 4 ((off - base) / 4) := by
  refine BitVec.eq_of_toNat_eq ?_
  rw [BitVec.extractLsb'_toNat, BitVec.toNat_ofNat, BitVec.toNat_ofNat, Nat.mod_eq_of_lt h, Nat.shiftRight_eq_div_pow]
  omega

/-- The register lookup by ranges is the match and mask of R82. -/
theorem ctrlLookup_eq_matchMask (h : off < 0x1000) :
    ctrlLookup off =
      if BitVec.ofNat 12 off &&& 0xFFF = 0x000 then some .cliccfg
      else if BitVec.ofNat 12 off &&& 0xFC3 = 0x040 then some (.inttrigLo ((BitVec.ofNat 12 off).extractLsb' 2 4))
      else if BitVec.ofNat 12 off &&& 0xFC3 = 0x080 then some (.inttrigHi ((BitVec.ofNat 12 off).extractLsb' 2 4))
      else none := by
  have hlo : BitVec.ofNat 12 off &&& 0xFC3 = 0x040 ↔ 0x40 ≤ off ∧ off < 0x80 ∧ off % 4 = 0 := by
    rw [and_regMask_eq_iff h, show (0x040 : BitVec 12).toNat = 64 from rfl]; omega
  have hhi : BitVec.ofNat 12 off &&& 0xFC3 = 0x080 ↔ 0x80 ≤ off ∧ off < 0xC0 ∧ off % 4 = 0 := by
    rw [and_regMask_eq_iff h, show (0x080 : BitVec 12).toNat = 128 from rfl]; omega
  simp only [and_fullMask_eq_zero_iff h, hlo, hhi]
  unfold ctrlLookup
  split_ifs with h0 h1 h2
  · rfl
  · rw [extractLsb'_regNumber h rfl h1.1]
  · rw [extractLsb'_regNumber h rfl h2.1]
  · rfl

/-- Settles O4: both decoders ask the register lookup, which is the match and mask on the offset. -/
theorem controlOffsetsDecodeByMatchAndMask : Obligations.ControlOffsetsDecodeByMatchAndMask := by
  unfold Obligations.ControlOffsetsDecodeByMatchAndMask
  intro A off v hoff hv
  constructor
  · refine (decode_read A off .w).trans ?_
    unfold decodeRead
    rw [if_pos hoff, if_pos rfl, ctrlLookup_eq_matchMask hoff]
    split_ifs <;> rfl
  · refine (decode_write (n := .w) A off hv).trans ?_
    unfold decodeWrite
    rw [if_pos hoff, if_pos rfl, ctrlLookup_eq_matchMask hoff]
    split_ifs <;> rfl

/-- A byte read of the control region selects no register (R81). -/
theorem decodeRead_byte_control {A : Mode} (h : off < 0x1000) : decodeRead A off .b = .unlisted (.read A off .b) := by
  unfold decodeRead
  rw [if_pos h, if_neg (by decide)]

/-- A byte write of the control region selects no register (R81). -/
theorem decodeWrite_byte_control {A : Mode} {v : Nat} (h : off < 0x1000) :
    decodeWrite A off .b v = .unlisted (.write A off .b (BitVec.ofNat 64 v)) := by
  unfold decodeWrite
  rw [if_pos h, if_neg (by decide)]

/-- Settles O5: the region is chosen at 0x1000, and the shift and mask of R81 are the quotient and remainder by 4. -/
theorem perIrqOffsetsDecodeToIrqAndRegister : Obligations.PerIrqOffsetsDecodeToIrqAndRegister := by
  unfold Obligations.PerIrqOffsetsDecodeToIrqAndRegister
  intro A off v hv
  have hread := decode_read A off .b
  have hwrite := decode_write (n := .b) A off hv
  have hsel : off &&& 3 = off % 4 := Nat.and_two_pow_sub_one_eq_mod off 2
  have hirq : (off - 0x1000) >>> 2 = (off - 0x1000) / 4 := Nat.shiftRight_eq_div_pow _ 2
  rw [hsel, hirq]
  exact ⟨fun hlow => ⟨hread.trans (decodeRead_byte_control hlow), hwrite.trans (decodeWrite_byte_control hlow)⟩,
    fun hhigh => ⟨hread.trans (decodeRead_byte hhigh), hwrite.trans (decodeWrite_byte hhigh)⟩⟩

end Sys2Proof.Machine
end

section
/-! SUPPORT. What an arbitration selects: the level and the stop test along the order of the active set (R103, R107, R108),
and the first pending entry the scan reaches (R212, R213). -/

namespace Sys2Proof.Machine

/-- The level keeps the high bits of the control byte and fills the bits below them with ones (R103). -/
theorem level_eq_shift (c : Byte) (nlbits ctlbits : Nat) :
    level c nlbits ctlbits =
      (c >>> (8 - min nlbits ctlbits)) <<< (8 - min nlbits ctlbits) ||| maskLow (8 - min nlbits ctlbits) := by
  have hmask (k : Nat) : c &&& (BitVec.allOnes 8 <<< k) = (c >>> k) <<< k := by
    ext i hi
    by_cases h : i < k
    · simp [h]
    · have hk : k + (i - k) = i := by omega
      simp [h, hk, BitVec.getLsbD_eq_getElem hi, -BitVec.reduceAllOnes]
  exact congrArg (· ||| _) (hmask _)

/-- The level as a number (R103). -/
theorem level_toNat (c : Byte) (nlbits ctlbits : Nat) :
    (level c nlbits ctlbits).toNat =
      c.toNat / 2 ^ (8 - min nlbits ctlbits) * 2 ^ (8 - min nlbits ctlbits) + (2 ^ (8 - min nlbits ctlbits) - 1) := by
  rw [level_eq_shift]
  generalize hk : 8 - min nlbits ctlbits = k
  have hle : 2 ^ k ≤ 2 ^ 8 := Nat.pow_le_pow_right (by decide) (by omega)
  have hpos : 0 < 2 ^ k := Nat.two_pow_pos k
  have hhigh : c.toNat / 2 ^ k * 2 ^ k < 2 ^ 8 := lt_of_le_of_lt (Nat.div_mul_le_self _ _) c.isLt
  rw [BitVec.toNat_or, BitVec.toNat_shiftLeft, BitVec.toNat_ushiftRight, Nat.shiftRight_eq_div_pow, Nat.shiftLeft_eq,
    Nat.mod_eq_of_lt hhigh, maskLow, BitVec.toNat_ofNat, Nat.mod_eq_of_lt (by omega), ← Nat.shiftLeft_eq,
    Nat.shiftLeft_add_eq_or_of_lt (by omega)]

/-- The level never falls when the control byte rises (R103). -/
theorem level_mono {c d : Byte} (h : c.toNat ≤ d.toNat) (nlbits ctlbits : Nat) :
    (level c nlbits ctlbits).toNat ≤ (level d nlbits ctlbits).toNat := by
  rw [level_toNat, level_toNat]
  gcongr

section Masked
variable {P : Params} {E : Env} {b : Block}

/-- A lower `intcfg` has a lower mode, or the same mode and no higher level (R107, R108). -/
theorem mode_level_of_intcfgOf_le {i j : Nat} (h : (intcfgOf P b j).toNat ≤ (intcfgOf P b i).toNat) :
    (effMode P b j).rank < (effMode P b i).rank ∨
      effMode P b j = effMode P b i ∧ (levelOf P b j).toNat ≤ (levelOf P b i).toNat := by
  unfold intcfgOf at h
  rw [intcfg_toNat, intcfg_toNat] at h
  have hi := (b.irq i).ctl.isLt
  have hj := (b.irq j).ctl.isLt
  by_cases hr : (effMode P b j).rank = (effMode P b i).rank
  · have hm := rank_inj hr
    refine .inr ⟨hm, ?_⟩
    unfold levelOf
    rw [hm]
    exact level_mono (by omega) _ _
  · exact .inl (by omega)

/-- What is not masked at a lower `intcfg` is not masked at a higher one (R108). -/
theorem not_stops_of_intcfgOf_le {i j : Nat} (h : (intcfgOf P b j).toNat ≤ (intcfgOf P b i).toNat)
    (hj : stops E (effMode P b j) (levelOf P b j) = false) : stops E (effMode P b i) (levelOf P b i) = false := by
  rw [stops_false] at hj ⊢
  obtain ⟨hrank, hfloor⟩ := hj
  rcases mode_level_of_intcfgOf_le h with hlt | ⟨hm, hl⟩
  · refine ⟨by omega, fun he => ?_⟩
    rw [he] at hlt
    omega
  · rw [hm] at hrank hfloor
    exact ⟨hrank, fun he => (hfloor he).trans hl⟩

/-- A higher key has a higher or equal `intcfg` (R107). -/
theorem cfg_le_of_entryKey_le {x y : Entry} (h : entryKey y ≤ entryKey x) : y.cfg.toNat ≤ x.cfg.toNat := by
  unfold entryKey at h
  rw [encodePriority_toNat, encodePriority_toNat] at h
  omega

/-- An entry of the active set, by its IRQ. -/
theorem eq_of_mem_activeSet {e : Entry} (he : e ∈ activeSet P b) : e = ⟨intcfgOf P b e.irq, e.irq⟩ := by
  rw [← cfg_of_mem_activeSet he]

/-- The scan's stop test on an entry of the active set, by the mode and the level of its IRQ. -/
theorem stops_of_mem_activeSet {e : Entry} (he : e ∈ activeSet P b) :
    stops E (entryMode e.cfg) (entryLevel P b.cfg e) = stops E (effMode P b e.irq) (levelOf P b e.irq) := by
  rw [eq_of_mem_activeSet he, entryMode_intcfgOf, entryLevel_intcfgOf]

/-- An entry above one that does not stop the scan does not stop it either (R108). -/
theorem not_stops_of_entryKey_le {x y : Entry} (hx : x ∈ activeSet P b) (hy : y ∈ activeSet P b)
    (h : entryKey y ≤ entryKey x) (hs : stops E (entryMode y.cfg) (entryLevel P b.cfg y) = false) :
    stops E (entryMode x.cfg) (entryLevel P b.cfg x) = false := by
  rw [stops_of_mem_activeSet hx]
  rw [stops_of_mem_activeSet hy] at hs
  refine not_stops_of_intcfgOf_le ?_ hs
  rw [← cfg_of_mem_activeSet hx, ← cfg_of_mem_activeSet hy]
  exact cfg_le_of_entryKey_le h

/-- The scan selects the first pending entry when no entry up to it stops the scan; the converse of `scan_some`. -/
theorem scan_eq_some {l₁ l₂ : List Entry} {e : Entry} (hp : (b.irq e.irq).ip = true)
    (hs : stops E (entryMode e.cfg) (entryLevel P b.cfg e) = false)
    (hb : ∀ x ∈ l₁, (b.irq x.irq).ip = false ∧ stops E (entryMode x.cfg) (entryLevel P b.cfg x) = false) :
    scan P E b (l₁ ++ e :: l₂) = some e := by
  induction l₁ with
  | nil => simp [scan, hp, hs]
  | cons x rest ih =>
    obtain ⟨hxp, hxs⟩ := hb x List.mem_cons_self
    simp [scan, hxp, hxs, ih fun y hy => hb y (List.mem_cons_of_mem _ hy)]

/-- The scan of the active set selects the highest of its pending entries that do not stop it. -/
theorem scan_activeSet_eq_some (hP : P.numSources ≤ 4096) (hw : irqsWf P.numSources b.irqs) {e : Entry}
    (he : e ∈ activeSet P b) (hp : (b.irq e.irq).ip = true)
    (hs : stops E (entryMode e.cfg) (entryLevel P b.cfg e) = false)
    (hmax : ∀ x ∈ activeSet P b, (b.irq x.irq).ip = true →
      stops E (entryMode x.cfg) (entryLevel P b.cfg x) = false → entryKey x ≤ entryKey e) :
    scan P E b (activeSet P b) = some e := by
  have hstrict := activeSet_strict hP hw
  obtain ⟨l₁, l₂, hl⟩ := List.append_of_mem he
  have hahead : ∀ x ∈ l₁, x ∈ activeSet P b ∧ entryKey e < entryKey x := by
    intro x hx
    rw [hl] at hstrict ⊢
    exact ⟨List.mem_append_left _ hx, (List.pairwise_append.1 hstrict).2.2 x hx e List.mem_cons_self⟩
  rw [hl]
  refine scan_eq_some hp hs fun x hx => ?_
  obtain ⟨hmem, hlt⟩ := hahead x hx
  have hxs := not_stops_of_entryKey_le hmem he hlt.le hs
  refine ⟨Bool.eq_false_iff.2 fun hxp => ?_, hxs⟩
  exact absurd (hmax x hmem hxp hxs) (Nat.not_le.2 hlt)

end Masked

/-- An eligible interrupt is a pending entry of the active set that does not stop the scan (R211, R212). -/
theorem eligible_iff {s : State} (hw : irqsWf s.params.numSources s.blk.irqs) (i : Nat) :
    eligible s i ↔ ⟨intcfgOf s.params s.blk i, i⟩ ∈ activeSet s.params s.blk ∧ (s.blk.irq i).ip = true ∧
      stops s.env (effMode s.params s.blk i) (levelOf s.params s.blk i) = false := by
  have hmem : ⟨intcfgOf s.params s.blk i, i⟩ ∈ activeSet s.params s.blk ↔
      i < s.params.numSources ∧ (s.blk.irq i).ie = true :=
    ⟨fun h => ⟨irq_lt_of_mem_activeSet hw h, ((mem_activeSet hw.1).1 h).1⟩, fun h => (mem_activeSet hw.1).2 ⟨h.2, rfl⟩⟩
  have hfloor : (effMode s.params s.blk i = s.env.priv →
        max (s.env.xil.get s.env.priv).toNat (s.env.thresh.get s.env.priv).toNat ≤ (levelOf s.params s.blk i).toNat) ↔
      (effMode s.params s.blk i = s.env.priv →
        (floorOf s.env (effMode s.params s.blk i)).toNat ≤ (levelOf s.params s.blk i).toNat) :=
    forall_congr' fun hm => by rw [hm, floorOf_toNat]
  rw [hmem, stops_false, ← hfloor]
  unfold eligible
  tauto

/-- The arbitration order of the statements is the key of the active set (R107). -/
theorem entryKey_intcfgOf (s : State) {i : Nat} (hi : i < 4096) :
    entryKey ⟨intcfgOf s.params s.blk i, i⟩ = orderKey s i := by
  simp only [entryKey, encodePriority_toNat, intcfgOf, intcfg_toNat, Nat.mod_eq_of_lt hi, orderKey]

/-- Under the invariant the scan selects the eligible interrupt that is highest in the order (R213, R216). -/
theorem scan_eq_of_highest_eligible {s : State} {i : Nat} (hinv : stateInv s) (hi : eligible s i)
    (hmax : ∀ j, eligible s j → orderKey s j ≤ orderKey s i) :
    scan s.params s.env s.blk (activeSet s.params s.blk) = some ⟨intcfgOf s.params s.blk i, i⟩ := by
  obtain ⟨⟨-, hP, -⟩, ⟨hw, -⟩, -⟩ := hinv
  obtain ⟨hmem, hip, hstop⟩ := (eligible_iff hw i).1 hi
  refine scan_activeSet_eq_some hP hw hmem hip ((stops_of_mem_activeSet hmem).trans hstop) fun x hx hxp hxs => ?_
  have hxi : eligible s x.irq :=
    (eligible_iff hw x.irq).2 ⟨eq_of_mem_activeSet hx ▸ hx, hxp, (stops_of_mem_activeSet hx).symm.trans hxs⟩
  rw [eq_of_mem_activeSet hx, entryKey_intcfgOf s (lt_of_lt_of_le hxi.1 hP), entryKey_intcfgOf s (lt_of_lt_of_le hi.1 hP)]
  exact hmax x.irq hxi

/-- The auto-clear in the bits of the attribute byte: `shv` is bit 0, and bit 1 tells edge from level (R100, R102, R213). -/
theorem autoClears_iff (a : Byte) : autoClears a = true ↔ a.getLsbD 0 = true ∧ a.getLsbD 1 = true := by
  have hedge : isEdge (attrTrig a) = a.getLsbD 1 := by
    rw [attrTrig, isEdge_trigOfBits]
    revert a
    decide
  rw [autoClears, attrShv, hedge, Bool.and_eq_true]

/-- An arbitration at a supported `cpu.priv` completes with the arbiter's block (R210). -/
theorem exec_arb {s : State} (h : supports s.params s.env.priv = true) :
    exec .arb s = .next (s.complete (arbitrate s.params s.env s.blk) .nothing []) := by
  show execArb s = _
  simp [execArb, h]

/-- Settles O30: the entries ahead of the highest eligible one are unmasked by R108 and not pending, so the scan reaches it. -/
theorem arbiterPostsTheHighestEligibleInterrupt : Obligations.ArbiterPostsTheHighestEligibleInterrupt := by
  unfold Obligations.ArbiterPostsTheHighestEligibleInterrupt
  intro s i hinv hpriv hi hmax
  have harb : arbitrate s.params s.env s.blk = post s.params s.blk ⟨intcfgOf s.params s.blk i, i⟩ := by
    unfold arbitrate
    rw [scan_eq_of_highest_eligible hinv hi hmax]
  rw [exec_arb hpriv, harb]
  simp only [post, autoClears_iff, entryMode_intcfgOf, entryLevel_intcfgOf]
  rfl

end Sys2Proof.Machine
end

section
/-! SUPPORT. The active set is strictly sorted by its keys, so its entries determine it: a store of an enable bit changes them
by one entry (R140, R141, R142). -/

namespace Sys2Proof.Machine

@[simp] theorem effMode_setIe (P : Params) (b : Block) (i j : Nat) (f : Bool) :
    effMode P (b.setIe i f) j = effMode P b j := by
  by_cases h : j = i <;> simp [effMode, h]

@[simp] theorem intcfgOf_setIe (P : Params) (b : Block) (i j : Nat) (f : Bool) :
    intcfgOf P (b.setIe i f) j = intcfgOf P b j := by
  by_cases h : j = i <;> simp [intcfgOf, h]

variable {P : Params} {b : Block} {i : Nat}

theorem irqsWf_setIe (hw : irqsWf P.numSources b.irqs) (hi : i < P.numSources) (f : Bool) :
    irqsWf P.numSources (b.setIe i f).irqs := irqsWf_set hw hi _

/-- A store of the enable bit decides about the entry of its own IRQ and leaves the others. -/
theorem mem_activeSet_setIe (hw : irqsWf P.numSources b.irqs) (hi : i < P.numSources) (f : Bool) (e : Entry) :
    e ∈ activeSet P (b.setIe i f) ↔
      (e.irq = i ∧ f = true ∧ e.cfg = intcfgOf P b i) ∨ (e.irq ≠ i ∧ e ∈ activeSet P b) := by
  rw [mem_activeSet (irqsWf_setIe hw hi f).1, mem_activeSet hw.1]
  by_cases h : e.irq = i <;> simp [h]

/-- An entry of IRQ `i` in the active set is the one its current `intcfg` makes. -/
theorem eq_iff_irq_of_mem_activeSet {e : Entry} (he : e ∈ activeSet P b) : e = ⟨intcfgOf P b i, i⟩ ↔ e.irq = i :=
  ⟨fun h => h ▸ rfl, fun h => h ▸ eq_of_mem_activeSet he⟩

/-- Sorting a list whose keys all differ sorts it strictly. -/
theorem sortActive_strict {l : List Entry} (h : l.Pairwise (fun x y => entryKey x ≠ entryKey y)) :
    (sortActive l).Pairwise (fun x y => entryKey y < entryKey x) := by
  have hne : (sortActive l).Pairwise (fun x y => entryKey x ≠ entryKey y) :=
    ((sortActive_perm l).pairwise_iff Ne.symm).2 h
  exact ((sortActive_pairwise l).and hne).imp fun ⟨hle, hxy⟩ => lt_of_le_of_ne hle hxy.symm

theorem mem_activeInsert {l : List Entry} {c : BitVec 10} {e : Entry} :
    e ∈ activeInsert l c i ↔ e ∈ l ∨ e = ⟨c, i⟩ := by
  rw [activeInsert, mem_sortActive, List.mem_append, List.mem_singleton]

/-- An insertion of a new key keeps the strict order (R141). -/
theorem activeInsert_strict {l : List Entry} {c : BitVec 10}
    (hl : l.Pairwise (fun x y => entryKey y < entryKey x)) (hnew : ∀ x ∈ l, entryKey x ≠ entryKey ⟨c, i⟩) :
    (activeInsert l c i).Pairwise (fun x y => entryKey y < entryKey x) := by
  refine sortActive_strict (List.pairwise_append.2 ⟨hl.imp ne_of_gt, List.pairwise_singleton _ _, fun x hx y hy => ?_⟩)
  rw [List.mem_singleton.1 hy]
  exact hnew x hx

/-- A removal keeps the strict order (R142). -/
theorem activeRemove_strict {l : List Entry} {c : BitVec 10}
    (hl : l.Pairwise (fun x y => entryKey y < entryKey x)) :
    (activeRemove l c i).Pairwise (fun x y => entryKey y < entryKey x) :=
  hl.sublist List.eraseP_sublist

/-- In a strictly sorted list the entry whose key matches is the only one, so the removal leaves all the others (R142). -/
theorem mem_activeRemove {l : List Entry} {c : BitVec 10} {e : Entry}
    (hl : l.Pairwise (fun x y => entryKey y < entryKey x)) :
    e ∈ activeRemove l c i ↔ e ∈ l ∧ entryKey e ≠ entryKey ⟨c, i⟩ := by
  unfold activeRemove
  induction l with
  | nil => simp
  | cons x rest ih =>
    obtain ⟨hx, hrest⟩ := List.pairwise_cons.1 hl
    by_cases hkey : entryKey x = entryKey ⟨c, i⟩
    · rw [List.eraseP_cons_of_pos (by simpa using hkey), List.mem_cons]
      constructor
      · exact fun he => ⟨.inr he, hkey ▸ (hx e he).ne⟩
      · rintro ⟨rfl | he, hne⟩
        · exact absurd hkey hne
        · exact he
    · rw [List.eraseP_cons_of_neg (by simpa using hkey), List.mem_cons, List.mem_cons, ih hrest]
      constructor
      · rintro (rfl | ⟨he, hne⟩)
        · exact ⟨.inl rfl, hkey⟩
        · exact ⟨.inr he, hne⟩
      · rintro ⟨rfl | he, hne⟩
        · exact .inl rfl
        · exact .inr ⟨he, hne⟩

/-- Under 12-bit IRQ numbers the key of an IRQ's entry finds that IRQ in the active set (R107). -/
theorem entryKey_eq_iff_of_mem_activeSet (hP : P.numSources ≤ 4096) (hw : irqsWf P.numSources b.irqs)
    (hi : i < P.numSources) {e : Entry} (he : e ∈ activeSet P b) :
    entryKey e = entryKey ⟨intcfgOf P b i, i⟩ ↔ e.irq = i := by
  rw [← eq_iff_irq_of_mem_activeSet he]
  refine ⟨fun h => entryKey_inj ?_ ?_ h, fun h => congrArg entryKey h⟩
  · exact lt_of_lt_of_le (irq_lt_of_mem_activeSet hw he) hP
  · exact lt_of_lt_of_le hi hP

/-- Enabling a disabled IRQ is `insert` on the active set (R141). -/
theorem activeSet_setIe_true (hP : P.numSources ≤ 4096) (hw : irqsWf P.numSources b.irqs) (hi : i < P.numSources)
    (hoff : (b.irq i).ie = false) :
    activeSet P (b.setIe i true) = activeInsert (activeSet P b) (intcfgOf P b i) i := by
  have hother : ∀ e ∈ activeSet P b, e.irq ≠ i := by
    rintro e he rfl
    exact absurd ((mem_activeSet hw.1).1 he).1 (by simp [hoff])
  refine eq_of_strict (activeSet_strict hP (irqsWf_setIe hw hi true)) ?_ fun e => ?_
  · exact activeInsert_strict (activeSet_strict hP hw) fun x hx h =>
      hother x hx ((entryKey_eq_iff_of_mem_activeSet hP hw hi hx).1 h)
  · rw [mem_activeSet_setIe hw hi, mem_activeInsert]
    constructor
    · rintro (⟨rfl, -, hc⟩ | ⟨-, he⟩)
      · exact .inr (by rw [← hc])
      · exact .inl he
    · rintro (he | rfl)
      · exact .inr ⟨hother e he, he⟩
      · exact .inl ⟨rfl, rfl, rfl⟩

/-- Disabling an IRQ is `remove` on the active set (R142). -/
theorem activeSet_setIe_false (hP : P.numSources ≤ 4096) (hw : irqsWf P.numSources b.irqs) (hi : i < P.numSources) :
    activeSet P (b.setIe i false) = activeRemove (activeSet P b) (intcfgOf P b i) i := by
  have hstrict := activeSet_strict hP hw
  refine eq_of_strict (activeSet_strict hP (irqsWf_setIe hw hi false)) (activeRemove_strict hstrict) fun e => ?_
  have hkey : e ∈ activeSet P b → (entryKey e ≠ entryKey ⟨intcfgOf P b i, i⟩ ↔ e.irq ≠ i) := fun he =>
    not_congr (entryKey_eq_iff_of_mem_activeSet hP hw hi he)
  rw [mem_activeSet_setIe hw hi, mem_activeRemove hstrict, and_congr_right hkey]
  simp [and_comm]

/-- Settles O36: the entries are those of the enabled IRQs the file lists, and the keys of two of them differ. -/
theorem activeSetHoldsTheEnabledIrqsInOrder : Obligations.ActiveSetHoldsTheEnabledIrqsInOrder := by
  unfold Obligations.ActiveSetHoldsTheEnabledIrqsInOrder
  rintro s ⟨⟨-, hP, -⟩, ⟨hw, -⟩, -⟩
  refine ⟨fun i c => ?_, activeSet_strict hP hw⟩
  constructor
  · exact fun h => ⟨irq_lt_of_mem_activeSet hw h, (mem_activeSet hw.1).1 h⟩
  · exact fun ⟨_, h⟩ => (mem_activeSet hw.1).2 h

/-- Settles O37: both sides are strictly sorted and hold the same entries. -/
theorem enableInsertsAndDisableRemoves : Obligations.EnableInsertsAndDisableRemoves := by
  unfold Obligations.EnableInsertsAndDisableRemoves
  rintro s i ⟨⟨-, hP, -⟩, ⟨hw, -⟩, -⟩ hi
  exact ⟨activeSet_setIe_true hP hw hi, fun _ => activeSet_setIe_false hP hw hi⟩

end Sys2Proof.Machine
end

section
/-! SUPPORT. A line event stores the pending bit of its cell of the trigger table and arbitrates, or completes without an
effect (R150, R155). -/

namespace Sys2Proof.Machine

/-- The trigger table on the `trig` bits 2:1 of the attribute byte (R102, R150). -/
theorem lineEffect_eq (b : Block) (i : Nat) (L : Bool) :
    lineEffect b i L =
      if (b.irq i).attr.extractLsb' 1 2 = 0 then some L
      else if (b.irq i).attr.extractLsb' 1 2 = 1 then (if L then some true else none)
      else if (b.irq i).attr.extractLsb' 1 2 = 2 then some !L
      else (if L then none else some true) := by
  unfold lineEffect attrTrig
  generalize (b.irq i).attr.extractLsb' 1 2 = trig
  revert trig L
  decide

/-- The cells that store nothing are the two inactive levels of an edge (R150). -/
theorem lineEffect_eq_none_iff (b : Block) (i : Nat) (L : Bool) :
    lineEffect b i L = none ↔ lineIsNoOp (b.irq i).attr L := by
  rw [lineEffect_eq, lineIsNoOp]
  generalize (b.irq i).attr.extractLsb' 1 2 = trig
  revert trig L
  decide

section
variable {s : State} {i : Nat} {L : Bool} (hi : i < s.params.numSources)
include hi

/-- An event in a cell that stores nothing completes with the block as it is, at any `cpu.priv` (R150; entry 10). -/
theorem exec_line_of_none (h : lineEffect s.blk i L = none) :
    exec (.line i L) s = .next (s.complete s.blk .nothing []) := by
  show execLine i L s = _
  simp [execLine, hi, h]

/-- An event in a cell that stores a pending bit arbitrates after the store (R150, R155). -/
theorem exec_line_of_some {v : Bool} (hpriv : supports s.params s.env.priv = true) (h : lineEffect s.blk i L = some v) :
    exec (.line i L) s = .next (s.complete (arbitrate s.params s.env (s.blk.setIp i v)) .nothing []) := by
  show execLine i L s = _
  simp [execLine, hi, hpriv, h]

/-- A line event at a supported `cpu.priv` completes with the block its cell of the table leaves (R150, R155). -/
theorem exec_line (hpriv : supports s.params s.env.priv = true) :
    exec (.line i L) s = .next (s.complete
      ((lineEffect s.blk i L).elim s.blk fun v => arbitrate s.params s.env (s.blk.setIp i v)) .nothing []) := by
  cases h : lineEffect s.blk i L with
  | none => exact exec_line_of_none hi h
  | some v => exact exec_line_of_some hi hpriv h

end

/-- Settles O28: each branch of the table is the effect of its cell, and the no-op cells are those without one. -/
theorem lineEventFollowsTheTriggerTable : Obligations.LineEventFollowsTheTriggerTable := by
  unfold Obligations.LineEventFollowsTheTriggerTable
  intro s i L hi
  constructor
  · intro hpriv
    rw [exec_line hi hpriv, lineEffect_eq]
    split_ifs <;> rfl
  · intro hno
    exact exec_line_of_none hi ((lineEffect_eq_none_iff s.blk i L).2 hno)

end Sys2Proof.Machine
end

section
/-! SUPPORT. A byte access to a register of an IRQ hidden from the view completes with nothing read, stored or logged (R163). -/

namespace Sys2Proof.Machine

section
variable {s : State} {A : Mode} {i r : Nat} (hview : viewUsable s A) (hi : i < s.params.numSources)
  (hhid : A.rank < (effMode s.params s.blk i).rank) (hr : r < 4)
include hview hi hhid hr

/-- A byte read of a register of a hidden IRQ gives zero (R163). -/
theorem busRead_invisible :
    busRead A (irqOff i r) .b s = .next (s.complete s.blk (.data .b 0) []) := by
  have hirq : irqOf (irqOff i r) = i := irqOf_irqOff hr
  have hbyte : byteRead s.params s.blk A (irqOff i r) = (0, []) :=
    byteRead_invisible (hirq.symm ▸ hi) (hirq.symm ▸ hhid)
  rw [busRead_byte hview (irqOff_ge i r), hbyte]
  rfl

/-- A byte write of a register of a hidden IRQ leaves the block as it is (R163). -/
theorem busWrite_invisible (v : Byte) :
    busWrite A (irqOff i r) .b (v.setWidth 64) s = .next (s.complete s.blk .nothing []) := by
  have hirq : irqOf (irqOff i r) = i := irqOf_irqOff hr
  have hbyte : byteWrite s.params s.env A s.blk (irqOff i r) v = (s.blk, []) :=
    byteWrite_invisible (hirq.symm ▸ hi) (hirq.symm ▸ hhid) v
  rw [busWrite_byte hview (irqOff_ge i r), hbyte]

end

/-- Settles O14: the eight rows are the byte accesses at the four offsets of the IRQ, each of which finds it hidden. -/
theorem invisibleIrqReadsZeroAndDropsWrites : Obligations.InvisibleIrqReadsZeroAndDropsWrites := by
  unfold Obligations.InvisibleIrqReadsZeroAndDropsWrites
  intro s A i v hview hi hhid
  have hread (r : Nat) (hr : r < 4) := busRead_invisible hview hi hhid hr
  have hwrite (r : Nat) (hr : r < 4) := busWrite_invisible hview hi hhid hr v
  constructor
  · exact ⟨hread 0 (by decide), hread 1 (by decide), hread 2 (by decide), hread 3 (by decide)⟩
  · exact ⟨hwrite 0 (by decide), hwrite 1 (by decide), hwrite 2 (by decide), hwrite 3 (by decide)⟩

end Sys2Proof.Machine
end

section
/-! SUPPORT. Accesses that the register decoder answers at once: through a view above `cpu.priv`, at an offset that starts no
register, to a trigger register, to a byte of an IRQ the view sees (R182 to R200). -/

namespace Sys2Proof.Machine

section Denied
variable {s : State} {A : Mode} (hview : supports s.params A = true) (hpriv : supports s.params s.env.priv = true)
  (hrank : s.env.priv.rank < A.rank) (off : Nat) (n : Width)
include hview hpriv hrank

/-- A read through a view above `cpu.priv` gives zero (R182, R254). -/
theorem busRead_denied : busRead A off n s = .next (s.complete s.blk (.data n 0) [.privilegeDenied]) :=
  busRead_eq hview hpriv (mmioRead_denied hrank)

/-- A write through a view above `cpu.priv` is dropped (R182, R254). -/
theorem busWrite_denied (v : DWord) : busWrite A off n v s = .next (s.complete s.blk .nothing [.privilegeDenied]) :=
  busWrite_eq hview hpriv (mmioWrite_denied hrank)

end Denied

/-- Settles O9: the tuple runs the bus operation of its view, which asks for the privilege before anything else (R182). -/
theorem accessAboveThePrivilegeIsDenied : Obligations.AccessAboveThePrivilegeIsDenied := by
  unfold Obligations.AccessAboveThePrivilegeIsDenied
  intro s A off v n hview hpriv hrank hv
  constructor
  · rw [runOp_read]
    exact busRead_denied hview hpriv hrank off n
  · rw [runOp_write A off s hv]
    exact busWrite_denied hview hpriv hrank off n _

section Control
variable {P : Params} {b : Block} {A : Mode} {off : Nat}

theorem ctrlRead_none (h : ctrlLookup off = none) (n : Width) :
    ctrlRead P b A off n = some (0, [.outOfRange]) := by
  simp only [ctrlRead, h]

theorem ctrlWrite_none (h : ctrlLookup off = none) (n : Width) (v : DWord) :
    ctrlWrite P b A off n v = some (b, [.outOfRange]) := by
  simp only [ctrlWrite, h]

/-- A value written to a register of the low half is stored masked (R188). -/
theorem ctrlWrite_inttrigLo (x : BitVec 4) (v : Word) :
    ctrlWrite P b A (CtrlReg.inttrigLo x).offset .w (v.setWidth 64) =
      some ({ b with inttrig := b.inttrig.set (trigIndex false x) (v &&& 0xC0001FFF) }, []) := by
  simp [ctrlWrite, maskInttrig]

/-- A value written to a register of the high half is stored masked (R188). -/
theorem ctrlWrite_inttrigHi (x : BitVec 4) (v : Word) :
    ctrlWrite P b A (CtrlReg.inttrigHi x).offset .w (v.setWidth 64) =
      some ({ b with inttrig := b.inttrig.set (trigIndex true x) (v &&& 0xC0001FFF) }, []) := by
  simp [ctrlWrite, maskInttrig]

end Control

/-- Settles O11: the offset passes the checks of R62 and the register lookup finds nothing there, for every width. -/
theorem controlOffsetWithoutRegisterIsOutOfRange : Obligations.ControlOffsetWithoutRegisterIsOutOfRange := by
  unfold Obligations.ControlOffsetWithoutRegisterIsOutOfRange
  rintro s A off v n ⟨hview, hpriv, hrank⟩ halign hlow h0 hgap hv
  have hnone := ctrlLookup_none h0 hgap
  constructor
  · rw [runOp_read]
    exact busRead_eq hview hpriv ((mmioRead_ctrl hrank halign hlow).trans (ctrlRead_none hnone n))
  · rw [runOp_write A off s hv]
    exact busWrite_eq hview hpriv ((mmioWrite_ctrl hrank halign hlow).trans (ctrlWrite_none hnone n _))

/-- The registers 0 to 15 are the low half (R82). -/
theorem eq_trigIndex_lo {x : BitVec 4} {k : Fin 32} (h : k.val = x.toNat) : k = trigIndex false x :=
  Fin.ext (by simpa [trigIndex] using h)

/-- The registers 16 to 31 are the high half (R82). -/
theorem eq_trigIndex_hi {x : BitVec 4} {k : Fin 32} (h : k.val = 16 + x.toNat) : k = trigIndex true x :=
  Fin.ext (by simpa [trigIndex] using h)

/-- Settles O19: each row is a 4-byte write at its register's start, which passes the checks of R62 and stores masked. -/
theorem writeOfClicinttrigOnlyStoresTheMaskedValue : Obligations.WriteOfClicinttrigOnlyStoresTheMaskedValue := by
  unfold Obligations.WriteOfClicinttrigOnlyStoresTheMaskedValue
  rintro s A x v k ⟨hview, hpriv, hrank⟩
  constructor
  · intro hk
    obtain rfl := eq_trigIndex_lo hk
    exact busWrite_eq hview hpriv ((mmioWrite_reg hrank _).trans (ctrlWrite_inttrigLo x v))
  · intro hk
    obtain rfl := eq_trigIndex_hi hk
    exact busWrite_eq hview hpriv ((mmioWrite_reg hrank _).trans (ctrlWrite_inttrigHi x v))

/-- Settles O21: the row is the byte read of register 3 of the IRQ, which is visible. -/
theorem readOfControlByteHardwiresLowBits : Obligations.ReadOfControlByteHardwiresLowBits := by
  unfold Obligations.ReadOfControlByteHardwiresLowBits
  intro s A i hview hi hvis
  refine (busRead_byte hview (irqOff_ge i 3)).trans ?_
  rw [byteRead_ctl hi hvis]
  rfl

/-- Bit 1 of the attribute byte, the low `trig` bit, tells level from edge (R100, R102). -/
theorem isLevel_attrTrig (a : Byte) : isLevel (attrTrig a) = !a.getLsbD 1 := by
  rw [attrTrig, isLevel_trigOfBits]
  revert a
  decide

/-- Settles O22: the row is the byte write of register 0 of the IRQ, whose setter asks bit 1 of the attribute byte. -/
theorem writeOfPendingByteStoresOnlyForEdges : Obligations.WriteOfPendingByteStoresOnlyForEdges := by
  unfold Obligations.WriteOfPendingByteStoresOnlyForEdges
  intro s A i v hview hi hvis
  refine (busWrite_byte hview (irqOff_ge i 0) v).trans ?_
  rw [byteWrite_ip hi hvis, setPending, isLevel_attrTrig]
  simp only [Bool.not_eq_true']
  rfl

/-- Settles O25: the row is the byte write of register 3 of the IRQ, whose setter compares the raw bytes. -/
theorem writeOfControlByteStoresTheRawByte : Obligations.WriteOfControlByteStoresTheRawByte := by
  unfold Obligations.WriteOfControlByteStoresTheRawByte
  intro s A i v hview hi hvis
  refine (busWrite_byte hview (irqOff_ge i 3) v).trans ?_
  rw [byteWrite_ctl hi hvis, setCtl]
  rfl

end Sys2Proof.Machine
end

section
/-! SUPPORT. The byte lanes of a wide read: lane `k` of the assembled data is the byte read at offset `k` (R83, R180, R201). -/

namespace Sys2Proof.Machine

section Lanes
variable (c : Byte) (r : DWord)

theorem getLsbD_laneJoin (i : Nat) :
    (laneJoin c r).getLsbD i = (decide (i < 64) && if i < 8 then c.getLsbD i else r.getLsbD (i - 8)) := by
  simp only [laneJoin, BitVec.getLsbD_or, BitVec.getLsbD_shiftLeft, BitVec.getLsbD_setWidth]
  by_cases h : i < 8
  · simp [h]
  · simp [h, BitVec.getLsbD_of_ge c i (Nat.not_lt.1 h)]

/-- The low lane of joined data is the byte joined. -/
theorem extractLsb'_laneJoin_zero : (laneJoin c r).extractLsb' 0 8 = c := by
  refine BitVec.eq_of_getLsbD_eq fun i hi => ?_
  rw [BitVec.getLsbD_extractLsb', getLsbD_laneJoin]
  simp [hi, show i < 64 by omega]

/-- The lanes above the low one are those of the rest, as far as the data reach. -/
theorem extractLsb'_laneJoin_succ {k : Nat} (hk : k < 7) :
    (laneJoin c r).extractLsb' (8 * (k + 1)) 8 = r.extractLsb' (8 * k) 8 := by
  refine BitVec.eq_of_getLsbD_eq fun i hi => ?_
  have hsub : 8 * (k + 1) + i - 8 = 8 * k + i := by omega
  have hrest : ¬ 8 * (k + 1) + i < 8 := by omega
  have hlt : 8 * (k + 1) + i < 64 := by omega
  rw [BitVec.getLsbD_extractLsb', BitVec.getLsbD_extractLsb', getLsbD_laneJoin, if_neg hrest, hsub, decide_eq_true hlt,
    Bool.true_and]

/-- Joining a byte to data of `k` lanes gives data of `k + 1` lanes. -/
theorem laneJoin_lt {k : Nat} (hr : r.toNat < 2 ^ (8 * k)) : (laneJoin c r).toNat < 2 ^ (8 * (k + 1)) := by
  have hc := c.isLt
  have hrest : (r <<< 8).toNat < 2 ^ (8 * (k + 1)) := by
    rw [BitVec.toNat_shiftLeft, Nat.shiftLeft_eq]
    refine (Nat.mod_le _ _).trans_lt ?_
    rw [Nat.mul_add, Nat.pow_add]
    omega
  have hbyte : (c.setWidth 64).toNat < 2 ^ (8 * (k + 1)) := by
    rw [BitVec.toNat_setWidth]
    exact ((Nat.mod_le _ _).trans_lt hc).trans_le (Nat.pow_le_pow_right (by decide) (by omega))
  rw [laneJoin, BitVec.toNat_or]
  exact Nat.or_lt_two_pow hrest hbyte

end Lanes

section Read
variable (P : Params) (b : Block) (A : Mode)

/-- Data of `k` lanes have `8k` bits. -/
theorem lanesRead_lt (k off : Nat) : (lanesRead P b A k off).1.toNat < 2 ^ (8 * k) := by
  induction k generalizing off with
  | zero => simp [lanesRead]
  | succ k ih => exact laneJoin_lt _ _ (ih (off + 1))

/-- Each lane of the data is the byte read at its offset. -/
theorem extractLsb'_lanesRead {k j : Nat} (hk : k ≤ 8) (hj : j < k) (off : Nat) :
    (lanesRead P b A k off).1.extractLsb' (8 * j) 8 = (byteRead P b A (off + j)).1 := by
  induction k generalizing off j with
  | zero => omega
  | succ k ih =>
    cases j with
    | zero => exact extractLsb'_laneJoin_zero _ _
    | succ j =>
      have hrest := ih (by omega) (by omega : j < k) (off + 1)
      rw [Nat.add_right_comm, Nat.add_assoc] at hrest
      exact (extractLsb'_laneJoin_succ _ _ (by omega)).trans hrest

end Read

theorem bytes_le_eight (n : Width) : n.bytes ≤ 8 := by cases n <;> decide

/-- Settles O26: a denied view denies the wide read and each byte read alike; through a usable one the data are the lanes
of the byte reads. -/
theorem wideReadAssemblesTheByteReads : Obligations.WideReadAssemblesTheByteReads := by
  unfold Obligations.WideReadAssemblesTheByteReads
  intro s A off n hview hpriv hwf
  simp only [WellFormed, wideOk, Bool.and_eq_true, decide_eq_true_eq] at hwf
  obtain ⟨⟨-, hoff⟩, halign⟩ := hwf
  have hbyte (k : Nat) : exec (byteReadInstr A (off + k)) s = busRead A (off + k) .b s :=
    exec_byteReadInstr (Nat.le_add_right_of_le hoff)
  by_cases hrank : A.rank ≤ s.env.priv.rank
  · refine ⟨_, _, busRead_eq hview hpriv (mmioRead_perIrq hrank halign hoff), lanesRead_lt _ _ _ _ _, fun k hk => ?_⟩
    rw [hbyte k, busRead_byte ⟨hview, hpriv, hrank⟩ (Nat.le_add_right_of_le hoff),
      extractLsb'_lanesRead _ _ _ (bytes_le_eight n) hk]
    exact ⟨_, rfl⟩
  · have hdenied := Nat.not_le.1 hrank
    have hlane (k : Nat) : ((0 : DWord).extractLsb' (8 * k) 8).setWidth 64 = 0 := by simp
    refine ⟨0, _, busRead_denied hview hpriv hdenied off n, Nat.two_pow_pos _, fun k _ => ⟨[.privilegeDenied], ?_⟩⟩
    rw [hbyte k, busRead_denied hview hpriv hdenied, hlane k]
    rfl

end Sys2Proof.Machine
end

section
/-! SUPPORT. What an arbitration leaves alone: it changes the pending bit of the entry it selects and no other, and it
selects the same entry whatever the registers of a disabled IRQ hold (R219). -/

namespace Sys2Proof.Machine

/-- An arbitration completes exactly at a supported `cpu.priv`, with the arbiter's block (R210). -/
theorem exec_arb_eq_next_iff {s t : State} :
    exec .arb s = .next t ↔
      supports s.params s.env.priv = true ∧ s.complete (arbitrate s.params s.env s.blk) .nothing [] = t := by
  by_cases h : supports s.params s.env.priv = true
  · rw [exec_arb h, Host.Outcome.next.injEq, and_iff_right h]
  · have hstop : exec .arb s = .refused .privUnsupported := by
      show execArb s = _
      simp [execArb, h]
    simp [hstop, h]

section Pending
variable {P : Params} {E : Env} {b : Block} {j : Nat}

/-- A pending bit an arbitration changes is that of the entry the scan selects (R213). -/
theorem scan_of_arbitrate_ip_ne (h : ((arbitrate P E b).irq j).ip ≠ (b.irq j).ip) :
    ∃ e, scan P E b (activeSet P b) = some e ∧ j = e.irq := by
  obtain ⟨-, harb⟩ | ⟨e, hscan, harb⟩ := arbitrate_cases P E b
  · exact absurd (by rw [harb]) h
  · refine ⟨e, hscan, by_contra fun hj => h ?_⟩
    rw [harb, post_irq, if_neg fun hc => hj hc.1]

/-- An arbitration sets no pending bit: the entry the scan selects was pending (R219). -/
theorem ip_of_arbitrate_ip (h : ((arbitrate P E b).irq j).ip = true) : (b.irq j).ip = true := by
  by_contra hoff
  obtain ⟨e, hscan, rfl⟩ := scan_of_arbitrate_ip_ne fun heq => hoff (heq ▸ h)
  obtain ⟨l₁, l₂, -, hip, -⟩ := scan_some hscan
  exact hoff hip

/-- An arbitration changes at most one pending bit (R219). -/
theorem eq_of_arbitrate_ip_ne {k : Nat} (hj : ((arbitrate P E b).irq j).ip ≠ (b.irq j).ip)
    (hk : ((arbitrate P E b).irq k).ip ≠ (b.irq k).ip) : j = k := by
  obtain ⟨e, hscan, rfl⟩ := scan_of_arbitrate_ip_ne hj
  obtain ⟨f, hscan', rfl⟩ := scan_of_arbitrate_ip_ne hk
  rw [hscan, Option.some.injEq] at hscan'
  rw [hscan']

end Pending

section Disabled
variable {P : Params} {E : Env} {b : Block} {j : Nat} {r : IrqRegs}

/-- A post for another IRQ keeps the registers written (R213). -/
theorem post_setIrq_irq {e : Entry} (he : e.irq ≠ j) (k : Nat) :
    (post P (b.setIrq j r) e).irq k = if k = j then r else (post P b e).irq k := by
  rw [post_irq, post_irq, setIrq_irq_ne b he, setIrq_irq]
  by_cases hk : k = j
  · subst hk
    simp [he.symm]
  · simp [hk]

/-- A write of one IRQ's registers leaves the `intcfg` of the others (R106). -/
theorem intcfgOf_setIrq_ne {k : Nat} (h : k ≠ j) : intcfgOf P (b.setIrq j r) k = intcfgOf P b k := by
  simp [intcfgOf, effMode, setIrq_irq_ne b h]

variable (hP : P.numSources ≤ 4096) (hw : irqsWf P.numSources b.irqs) (hj : j < P.numSources)
  (hoff : (b.irq j).ie = false)

include hw hoff in
/-- No entry of the active set stands for a disabled IRQ (R140). -/
theorem irq_ne_of_mem_activeSet {e : Entry} (he : e ∈ activeSet P b) : e.irq ≠ j := by
  rintro rfl
  have hon := ((mem_activeSet hw.1).1 he).1
  rw [hoff] at hon
  cases hon

include hP hw hj hoff

/-- The registers of a disabled IRQ play no part in the active set (R140). -/
theorem activeSet_setIrq_disabled (hr : r.ie = false) : activeSet P (b.setIrq j r) = activeSet P b := by
  have hw' : irqsWf P.numSources (b.setIrq j r).irqs := irqsWf_set hw hj r
  refine eq_of_strict (activeSet_strict hP hw') (activeSet_strict hP hw) fun e => ?_
  rw [mem_activeSet hw'.1, mem_activeSet hw.1]
  by_cases he : e.irq = j
  · simp [he, hoff, hr]
  · rw [setIrq_irq_ne b he, intcfgOf_setIrq_ne he]

/-- The scan selects the same entry whatever the registers of a disabled IRQ hold (R219). -/
theorem scan_setIrq_disabled (hr : r.ie = false) :
    scan P E (b.setIrq j r) (activeSet P (b.setIrq j r)) = scan P E b (activeSet P b) := by
  rw [activeSet_setIrq_disabled hP hw hj hoff hr]
  refine scan_congr (b := b.setIrq j r) (c := b) rfl fun e he => ?_
  rw [setIrq_irq_ne b (irq_ne_of_mem_activeSet hw hoff he)]

/-- An arbitration keeps the registers of a disabled IRQ, and they change nothing in what it posts or clears (R219). -/
theorem arbitrate_setIrq_disabled (hr : r.ie = false) :
    (arbitrate P E (b.setIrq j r)).exccode = (arbitrate P E b).exccode ∧
      (arbitrate P E (b.setIrq j r)).cpuLine = (arbitrate P E b).cpuLine ∧
      ∀ k, (arbitrate P E (b.setIrq j r)).irq k = if k = j then r else (arbitrate P E b).irq k := by
  have hscan' := scan_setIrq_disabled (E := E) hP hw hj hoff hr
  unfold arbitrate
  rw [hscan']
  cases hscan : scan P E b (activeSet P b) with
  | none => exact ⟨rfl, rfl, fun k => setIrq_irq b j k r⟩
  | some e =>
    obtain ⟨l₁, l₂, hl, -⟩ := scan_some hscan
    have he : e.irq ≠ j := irq_ne_of_mem_activeSet hw hoff (hl ▸ List.mem_append_right l₁ List.mem_cons_self)
    exact ⟨rfl, rfl, post_setIrq_irq he⟩

end Disabled

/-- Settles O32: the only pending bit that changes is that of the entry selected, and the selection reads neither the
trigger registers nor a disabled IRQ. -/
theorem arbiterFrame : Obligations.ArbiterFrame := by
  unfold Obligations.ArbiterFrame
  rintro s t ⟨⟨-, hP, -⟩, ⟨hw, -⟩, -⟩ hexec
  obtain ⟨hpriv, rfl⟩ := exec_arb_eq_next_iff.1 hexec
  refine ⟨fun j => ⟨ip_of_arbitrate_ip, arbitrate_ie _ _ _ j, arbitrate_attr _ _ _ j, arbitrate_ctl _ _ _ j⟩,
    arbitrate_cfg _ _ _, arbitrate_inttrig _ _ _, fun j k => eq_of_arbitrate_ip_ne, fun trig => ?_,
    fun j r hj hoff hr => ?_, rfl, rfl, rfl, rfl⟩
  · refine exec_arb_eq_next_iff.2 ⟨hpriv, ?_⟩
    exact congrArg (s.complete · .nothing []) (arbitrate_of_inttrig s.params s.env s.blk trig)
  · obtain ⟨hexc, hline, hirq⟩ := arbitrate_setIrq_disabled (E := s.env) hP hw hj hoff hr
    exact ⟨_, exec_arb_eq_next_iff.2 ⟨hpriv, rfl⟩, (hirq j).trans (if_pos rfl), hexc, hline,
      fun k hk => (hirq k).trans (if_neg hk)⟩

end Sys2Proof.Machine
end

section
/-! SUPPORT. The encoder and the decoder are inverse to each other on the instructions of the table (R80 to R82, R94). -/

namespace Sys2Proof.Machine

/-- The row that reads a control register. -/
def ctrlReadInstr (A : Mode) : CtrlReg → Instr
  | .cliccfg => .rdCliccfg A
  | .inttrigLo x => .rdInttrigLo A x
  | .inttrigHi x => .rdInttrigHi A x

/-- The row that writes a control register. -/
def ctrlWriteInstr (A : Mode) (v : Word) : CtrlReg → Instr
  | .cliccfg => .wrCliccfg A v
  | .inttrigLo x => .wrInttrigLo A x v
  | .inttrigHi x => .wrInttrigHi A x v

section Rows
variable (A : Mode) (i : Nat)

/-- The start of a control register decodes, for a 4-byte read, to the row that reads it (R82). -/
theorem decodeRead_offset (r : CtrlReg) : decodeRead A r.offset .w = .instr (ctrlReadInstr A r) := by
  unfold decodeRead
  rw [if_pos (ctrlOffset_lt r), if_pos rfl, ctrlLookup_offset]
  cases r <;> rfl

/-- The start of a control register decodes, for a 4-byte write, to the row that writes it (R82). -/
theorem decodeWrite_offset (r : CtrlReg) (v : Nat) :
    decodeWrite A r.offset .w v = .instr (ctrlWriteInstr A (BitVec.ofNat 32 v) r) := by
  unfold decodeWrite
  rw [if_pos (ctrlOffset_lt r), if_pos rfl, ctrlLookup_offset]
  cases r <;> rfl

/-- The byte read row of register `r` of IRQ `i`. -/
theorem byteReadInstr_irqOff {r : Nat} (hr : r < 4) : byteReadInstr A (irqOff i r) =
    if r = 0 then .rdIp A i else if r = 1 then .rdIe A i else if r = 2 then .rdAttr A i else .rdCtl A i := by
  have hirq : (irqOff i r - 0x1000) / 4 = i := irqOf_irqOff hr
  have hsel : irqOff i r % 4 = r := selOf_irqOff hr
  rw [byteReadInstr, hirq, hsel]

/-- The byte write row of register `r` of IRQ `i`. -/
theorem byteWriteInstr_irqOff {r : Nat} (hr : r < 4) (v : Byte) : byteWriteInstr A (irqOff i r) v =
    if r = 0 then .wrIp A i v else if r = 1 then .wrIe A i v else if r = 2 then .wrAttr A i v else .wrCtl A i v := by
  have hirq : (irqOff i r - 0x1000) / 4 = i := irqOf_irqOff hr
  have hsel : irqOff i r % 4 = r := selOf_irqOff hr
  rw [byteWriteInstr, hirq, hsel]

/-- A tuple that reads a control register (R82). -/
theorem decode_read_offset (r : CtrlReg) : decode (.read A.code r.offset 4) = .instr (ctrlReadInstr A r) :=
  (decode_read A r.offset .w).trans (decodeRead_offset A r)

/-- A tuple that writes a control register (R82). -/
theorem decode_write_offset (r : CtrlReg) (v : Word) :
    decode (.write A.code r.offset 4 v.toNat) = .instr (ctrlWriteInstr A v r) := by
  refine (decode_write (n := .w) A r.offset v.isLt).trans ((decodeWrite_offset A r v.toNat).trans ?_)
  rw [BitVec.ofNat_toNat, BitVec.setWidth_eq]

/-- A tuple that reads one byte of the per-IRQ region (R81). -/
theorem decode_read_irqOff (r : Nat) :
    decode (.read A.code (irqOff i r) 1) = .instr (byteReadInstr A (irqOff i r)) :=
  (decode_read A (irqOff i r) .b).trans (decodeRead_byte (irqOff_ge i r))

/-- A tuple that writes one byte of the per-IRQ region (R81). -/
theorem decode_write_irqOff (r : Nat) (v : Byte) :
    decode (.write A.code (irqOff i r) 1 v.toNat) = .instr (byteWriteInstr A (irqOff i r) v) := by
  refine (decode_write (n := .b) A (irqOff i r) v.isLt).trans ((decodeWrite_byte (irqOff_ge i r)).trans ?_)
  rw [BitVec.ofNat_toNat, BitVec.setWidth_eq]

end Rows

section Wide
variable (A : Mode) {off : Nat} {n : Width}

theorem wideOk_iff : wideOk off n = true ↔ n ≠ .b ∧ 0x1000 ≤ off ∧ off % n.bytes = 0 := by
  simp [wideOk, and_assoc]

theorem decodeRead_wide (h : wideOk off n = true) : decodeRead A off n = .instr (.rdWide A off n) := by
  obtain ⟨hn, hoff, halign⟩ := wideOk_iff.1 h
  rw [decodeRead, if_neg (Nat.not_lt.2 hoff), if_neg hn, if_pos halign]

theorem decodeWrite_wide (h : wideOk off n = true) (v : DWord) :
    decodeWrite A off n v.toNat = .instr (.wrWide A off n v) := by
  obtain ⟨hn, hoff, halign⟩ := wideOk_iff.1 h
  rw [decodeWrite, if_neg (Nat.not_lt.2 hoff), if_neg hn, if_pos halign, BitVec.ofNat_toNat, BitVec.setWidth_eq]

end Wide

/-- Settles O2: the tuple of each row starts a register, names a byte of the per-IRQ region, or is aligned in it. -/
theorem decodeOfEncodeIsTheInstruction : Obligations.DecodeOfEncodeIsTheInstruction := by
  unfold Obligations.DecodeOfEncodeIsTheInstruction
  intro i hwf
  cases i with
  | rdCliccfg A => exact decode_read_offset A .cliccfg
  | wrCliccfg A v => exact decode_write_offset A .cliccfg v
  | rdInttrigLo A x => exact decode_read_offset A (.inttrigLo x)
  | wrInttrigLo A x v => exact decode_write_offset A (.inttrigLo x) v
  | rdInttrigHi A x => exact decode_read_offset A (.inttrigHi x)
  | wrInttrigHi A x v => exact decode_write_offset A (.inttrigHi x) v
  | rdIp A i | rdIe A i | rdAttr A i | rdCtl A i =>
    rw [encode, decode_read_irqOff, byteReadInstr_irqOff A i (by decide)]
    rfl
  | wrIp A i v | wrIe A i v | wrAttr A i v | wrCtl A i v =>
    rw [encode, decode_write_irqOff, byteWriteInstr_irqOff A i (by decide)]
    rfl
  | rdWide A off n => exact (decode_read A off n).trans (decodeRead_wide A hwf)
  | wrWide A off n v =>
    rw [WellFormed, Bool.and_eq_true, decide_eq_true_eq] at hwf
    obtain ⟨hwide, hv⟩ := hwf
    exact (decode_write A off hv).trans (decodeWrite_wide A hwide v)
  | line i L => cases L <;> rfl
  | arb | ack | create a | reset => rfl

/-- The row of a control register has the register's start offset in its tuple (R82, R94). -/
theorem encode_ctrlReadInstr (A : Mode) (r : CtrlReg) :
    WellFormed (ctrlReadInstr A r) = true ∧ encode (ctrlReadInstr A r) = .read A.code r.offset 4 := by
  cases r <;> exact ⟨rfl, rfl⟩

theorem encode_ctrlWriteInstr (A : Mode) (r : CtrlReg) (v : Word) :
    WellFormed (ctrlWriteInstr A v r) = true ∧ encode (ctrlWriteInstr A v r) = .write A.code r.offset 4 v.toNat := by
  cases r <;> exact ⟨rfl, rfl⟩

/-- The byte row of an offset of the per-IRQ region has that offset in its tuple (R81, R94). -/
theorem encode_byteReadInstr {A : Mode} {off : Nat} (h : 0x1000 ≤ off) :
    WellFormed (byteReadInstr A off) = true ∧ encode (byteReadInstr A off) = .read A.code off 1 := by
  rw [← irqOff_irqOf h]
  have hsel : selOf off < 4 := Nat.mod_lt _ (by decide)
  generalize selOf off = r at hsel ⊢
  rw [byteReadInstr_irqOff A _ hsel]
  interval_cases r <;> exact ⟨rfl, rfl⟩

theorem encode_byteWriteInstr {A : Mode} {off : Nat} (h : 0x1000 ≤ off) (v : Byte) :
    WellFormed (byteWriteInstr A off v) = true ∧ encode (byteWriteInstr A off v) = .write A.code off 1 v.toNat := by
  rw [← irqOff_irqOf h]
  have hsel : selOf off < 4 := Nat.mod_lt _ (by decide)
  generalize selOf off = r at hsel ⊢
  rw [byteWriteInstr_irqOff A _ hsel]
  interval_cases r <;> exact ⟨rfl, rfl⟩

/-- A read that decodes to an instruction has that instruction's tuple. -/
theorem encode_of_decodeRead {A : Mode} {off : Nat} {n : Width} {i : Instr} (h : decodeRead A off n = .instr i) :
    WellFormed i = true ∧ encode i = .read A.code off n.bytes := by
  by_cases hlow : off < 0x1000
  · by_cases hw : n = .w
    · subst hw
      cases hr : ctrlLookup off with
      | none =>
        rw [decodeRead, if_pos hlow, if_pos rfl, hr] at h
        cases h
      | some r =>
        obtain rfl := offset_of_ctrlLookup hr
        obtain rfl := Decoded.instr.inj ((decodeRead_offset A r).symm.trans h)
        exact encode_ctrlReadInstr A r
    · rw [decodeRead, if_pos hlow, if_neg hw] at h
      cases h
  · have hge := Nat.not_lt.1 hlow
    by_cases hb : n = .b
    · subst hb
      obtain rfl := Decoded.instr.inj ((decodeRead_byte hge).symm.trans h)
      exact encode_byteReadInstr hge
    · rw [decodeRead, if_neg hlow, if_neg hb] at h
      split_ifs at h with halign
      cases h
      exact ⟨wideOk_iff.2 ⟨hb, hge, halign⟩, rfl⟩

/-- A write that decodes to an instruction has that instruction's tuple. -/
theorem encode_of_decodeWrite {A : Mode} {off v : Nat} {n : Width} {i : Instr} (hv : v < 2 ^ (8 * n.bytes))
    (h : decodeWrite A off n v = .instr i) : WellFormed i = true ∧ encode i = .write A.code off n.bytes v := by
  have hval {k : Nat} (hk : v < 2 ^ k) : (BitVec.ofNat k v).toNat = v := by rw [BitVec.toNat_ofNat, Nat.mod_eq_of_lt hk]
  by_cases hlow : off < 0x1000
  · by_cases hw : n = .w
    · subst hw
      cases hr : ctrlLookup off with
      | none =>
        rw [decodeWrite, if_pos hlow, if_pos rfl, hr] at h
        cases h
      | some r =>
        obtain rfl := offset_of_ctrlLookup hr
        obtain rfl := Decoded.instr.inj ((decodeWrite_offset A r v).symm.trans h)
        refine (encode_ctrlWriteInstr A r _).imp_right fun henc => henc.trans ?_
        rw [hval (k := 32) hv]
        rfl
    · rw [decodeWrite, if_pos hlow, if_neg hw] at h
      cases h
  · have hge := Nat.not_lt.1 hlow
    by_cases hb : n = .b
    · subst hb
      obtain rfl := Decoded.instr.inj ((decodeWrite_byte hge).symm.trans h)
      refine (encode_byteWriteInstr hge _).imp_right fun henc => henc.trans ?_
      rw [hval (k := 8) hv]
      rfl
    · rw [decodeWrite, if_neg hlow, if_neg hb] at h
      split_ifs at h with halign
      cases h
      have hv64 : (BitVec.ofNat 64 v).toNat = v :=
        hval (lt_of_lt_of_le hv (Nat.pow_le_pow_right (by decide) (Nat.mul_le_mul_left 8 (bytes_le_eight n))))
      refine ⟨?_, congrArg (RawOp.write _ _ _) hv64⟩
      rw [WellFormed, hv64, Bool.and_eq_true, decide_eq_true_eq]
      exact ⟨wideOk_iff.2 ⟨hb, hge, halign⟩, hv⟩

/-- Settles O3: a bus tuple that decodes at all has a mode and a width, and the rest is the decode of its offset. -/
theorem encodeOfDecodeIsTheTuple : Obligations.EncodeOfDecodeIsTheTuple := by
  unfold Obligations.EncodeOfDecodeIsTheTuple
  intro o i h
  cases o with
  | read view off k =>
    simp only [decode] at h
    split at h
    · cases h
    · cases h
    · next A n hA hn =>
      rw [← Mode.code_of_ofCode hA, ← Width.bytes_of_ofBytes hn]
      exact encode_of_decodeRead h
  | write view off k v =>
    simp only [decode] at h
    split at h
    · cases h
    · cases h
    · next A n hA hn =>
      rw [← Mode.code_of_ofCode hA, ← Width.bytes_of_ofBytes hn]
      split_ifs at h with hv
      exact encode_of_decodeWrite hv h
  | line k level =>
    simp only [decode] at h
    split_ifs at h with h0 h1
    · subst h0; cases h; exact ⟨rfl, rfl⟩
    · subst h1; cases h; exact ⟨rfl, rfl⟩
  | arbitrate | cpuAccept | create a | reset => cases h; exact ⟨rfl, rfl⟩

end Sys2Proof.Machine
end

section
/-! SUPPORT. Everything an operation can do to the block: one inversion for a bus write, one for an instruction
(R181, R150, R210, R234). -/

namespace Sys2Proof.Machine

/-- What a bus write can leave of a block: the block as it was, one control register written, or the byte steps of an
access of the per-IRQ region (R181). -/
inductive WriteEffect (P : Params) (E : Env) (A : Mode) (b : Block) (off : Nat) (n : Width) (v : DWord) : Block → Prop
  | dropped : WriteEffect P E A b off n v b
  | cliccfg (hoff : off = CtrlReg.cliccfg.offset) (hn : n = .w) :
      WriteEffect P E A b off n v { b with cfg := cfgWrite P A b.cfg (v.setWidth 32) }
  | inttrigLo (x : BitVec 4) (hoff : off = (CtrlReg.inttrigLo x).offset) (hn : n = .w) :
      WriteEffect P E A b off n v { b with inttrig := b.inttrig.set (trigIndex false x) (maskInttrig (v.setWidth 32)) }
  | inttrigHi (x : BitVec 4) (hoff : off = (CtrlReg.inttrigHi x).offset) (hn : n = .w) :
      WriteEffect P E A b off n v { b with inttrig := b.inttrig.set (trigIndex true x) (maskInttrig (v.setWidth 32)) }
  | lanes (hoff : 0x1000 ≤ off) : WriteEffect P E A b off n v (lanesWrite P E A n.bytes b off v).1

theorem ctrlWrite_effect {P : Params} {E : Env} {A : Mode} {b b' : Block} {off : Nat} {n : Width} {v : DWord}
    {log : List ErrorKind} (h : ctrlWrite P b A off n v = some (b', log)) : WriteEffect P E A b off n v b' := by
  cases hr : ctrlLookup off with
  | none =>
    rw [ctrlWrite_none hr] at h
    cases h
    exact .dropped
  | some r =>
    have hoff := offset_of_ctrlLookup hr
    simp only [ctrlWrite, hr] at h
    split_ifs at h with hn
    have hw := not_ne_iff.1 hn
    cases r with
    | cliccfg => cases h; exact .cliccfg hoff hw
    | inttrigLo x => cases h; exact .inttrigLo x hoff hw
    | inttrigHi x => cases h; exact .inttrigHi x hoff hw

theorem mmioWrite_effect {P : Params} {E : Env} {A : Mode} {b b' : Block} {off : Nat} {n : Width} {v : DWord}
    {log : List ErrorKind} (h : mmioWrite P E b A off n v = some (b', log)) : WriteEffect P E A b off n v b' := by
  unfold mmioWrite at h
  split_ifs at h with hpriv halign hlow
  · cases h; exact .dropped
  · cases h; exact .dropped
  · exact ctrlWrite_effect h
  · obtain rfl := congrArg Prod.fst (Option.some.inj h)
    exact .lanes (Nat.not_lt.1 hlow)

/-- The bus access a row of the table stands for: its view, offset, width and value. -/
def accessOf : Instr → Option Unlisted
  | .rdCliccfg A => some (.read A CtrlReg.cliccfg.offset .w)
  | .wrCliccfg A v => some (.write A CtrlReg.cliccfg.offset .w (v.setWidth 64))
  | .rdInttrigLo A x => some (.read A (CtrlReg.inttrigLo x).offset .w)
  | .wrInttrigLo A x v => some (.write A (CtrlReg.inttrigLo x).offset .w (v.setWidth 64))
  | .rdInttrigHi A x => some (.read A (CtrlReg.inttrigHi x).offset .w)
  | .wrInttrigHi A x v => some (.write A (CtrlReg.inttrigHi x).offset .w (v.setWidth 64))
  | .rdIp A i => some (.read A (irqOff i 0) .b)
  | .wrIp A i v => some (.write A (irqOff i 0) .b (v.setWidth 64))
  | .rdIe A i => some (.read A (irqOff i 1) .b)
  | .wrIe A i v => some (.write A (irqOff i 1) .b (v.setWidth 64))
  | .rdAttr A i => some (.read A (irqOff i 2) .b)
  | .wrAttr A i v => some (.write A (irqOff i 2) .b (v.setWidth 64))
  | .rdCtl A i => some (.read A (irqOff i 3) .b)
  | .wrCtl A i v => some (.write A (irqOff i 3) .b (v.setWidth 64))
  | .rdWide A off n => some (.read A off n)
  | .wrWide A off n v => some (.write A off n v)
  | .line _ _ | .arb | .ack | .create _ | .reset => none

/-- An instruction is a bus access, which runs the bus operation, or one of the five operations that are none. -/
theorem exec_cases (i : Instr) :
    (∃ A off n, accessOf i = some (.read A off n) ∧ viewOf i = some A ∧ isRead i = true ∧
        ∀ s, exec i s = busRead A off n s) ∨
      (∃ A off n v, accessOf i = some (.write A off n v) ∧ viewOf i = some A ∧ isRead i = false ∧
        ∀ s, exec i s = busWrite A off n v s) ∨
      (viewOf i = none ∧ isRead i = false ∧
        ((∃ k L, i = .line k L) ∨ i = .arb ∨ i = .ack ∨ (∃ a, i = .create a) ∨ i = .reset)) := by
  cases i with
  | rdCliccfg | rdInttrigLo | rdInttrigHi | rdIp | rdIe | rdAttr | rdCtl | rdWide =>
    exact .inl ⟨_, _, _, rfl, rfl, rfl, fun _ => rfl⟩
  | wrCliccfg | wrInttrigLo | wrInttrigHi | wrIp | wrIe | wrAttr | wrCtl | wrWide =>
    exact .inr (.inl ⟨_, _, _, _, rfl, rfl, rfl, fun _ => rfl⟩)
  | line | arb | ack | create | reset => exact .inr (.inr ⟨rfl, rfl, by simp⟩)

/-- A row that reads through a view is a bus read of that view (R180). -/
theorem exec_of_isRead {i : Instr} (h : isRead i = true) :
    ∃ A off n, viewOf i = some A ∧ ∀ s, exec i s = busRead A off n s := by
  obtain ⟨A, off, n, -, hview, -, hexec⟩ | ⟨A, off, n, v, -, -, hread, -⟩ | ⟨-, hread, -⟩ := exec_cases i
  · exact ⟨A, off, n, hview, hexec⟩
  · rw [hread] at h; cases h
  · rw [hread] at h; cases h

/-- A row with a view is a bus read or a bus write through it (R180, R181). -/
theorem exec_of_viewOf {i : Instr} {A : Mode} (h : viewOf i = some A) :
    (∃ off n, ∀ s, exec i s = busRead A off n s) ∨ ∃ off n v, ∀ s, exec i s = busWrite A off n v s := by
  obtain ⟨B, off, n, -, hview, -, hexec⟩ | ⟨B, off, n, v, -, hview, -, hexec⟩ | ⟨hview, -⟩ := exec_cases i
  · obtain rfl := Option.some.inj (hview.symm.trans h)
    exact .inl ⟨off, n, hexec⟩
  · obtain rfl := Option.some.inj (hview.symm.trans h)
    exact .inr ⟨off, n, v, hexec⟩
  · rw [hview] at h; cases h

/-- What an instruction that completes can leave of the block: nothing changed, a bus write's effect, an arbitration, after
the store of a pending bit or without one, or the line lowered. -/
inductive Effect (s : State) (i : Instr) : Block → Prop
  | unchanged : Effect s i s.blk
  | write {A : Mode} {off : Nat} {n : Width} {v : DWord} {b : Block} (hacc : accessOf i = some (.write A off n v))
      (h : WriteEffect s.params s.env A s.blk off n v b) : Effect s i b
  | line (k : Nat) (L v : Bool) (hi : i = .line k L) (hk : k < s.params.numSources) :
      Effect s i (arbitrate s.params s.env (s.blk.setIp k v))
  | arb (hi : i = .arb) : Effect s i (arbitrate s.params s.env s.blk)
  | ack (hi : i = .ack) : Effect s i { s.blk with cpuLine := false }

/-- A completed line event left the block alone or stored a pending bit and arbitrated (R150). -/
theorem exec_line_next {s t : State} {k : Nat} {L : Bool} (h : exec (.line k L) s = .next t) :
    k < s.params.numSources ∧ (t = s.complete s.blk .nothing [] ∨
      ∃ v, t = s.complete (arbitrate s.params s.env (s.blk.setIp k v)) .nothing []) := by
  change execLine k L s = .next t at h
  unfold execLine at h
  split at h
  · cases h
  · next hk =>
    refine ⟨Nat.not_le.1 hk, ?_⟩
    split at h
    · cases h; exact .inl rfl
    · next v _ =>
      split_ifs at h
      cases h
      exact .inr ⟨v, rfl⟩

/-- Everything an instruction other than construction and reset can do: an effect on the block, what it gives back and what
it logs. -/
theorem exec_effect {s t : State} {i : Instr} (hc : ∀ a, i ≠ .create a) (hr : i ≠ .reset) (h : exec i s = .next t) :
    t = s.complete t.blk t.result t.log ∧ Effect s i t.blk := by
  obtain ⟨A, off, n, -, -, -, hexec⟩ | ⟨A, off, n, v, hacc, -, -, hexec⟩ | ⟨-, -, hi⟩ := exec_cases i
  · obtain ⟨-, -, v, log, -, rfl⟩ := busRead_next ((hexec s).symm.trans h)
    exact ⟨rfl, .unchanged⟩
  · obtain ⟨-, -, b, log, hw, rfl⟩ := busWrite_next ((hexec s).symm.trans h)
    exact ⟨rfl, .write hacc (mmioWrite_effect hw)⟩
  · rcases hi with ⟨k, L, rfl⟩ | rfl | rfl | ⟨a, rfl⟩ | rfl
    · obtain ⟨hk, rfl | ⟨v, rfl⟩⟩ := exec_line_next h
      · exact ⟨rfl, .unchanged⟩
      · exact ⟨rfl, .line k L v rfl hk⟩
    · obtain ⟨-, rfl⟩ := exec_arb_eq_next_iff.1 h
      exact ⟨rfl, .arb rfl⟩
    · cases h
      exact ⟨rfl, .ack rfl⟩
    · exact absurd rfl (hc a)
    · exact absurd rfl hr

/-- A completed construction restarts the block under the parameters checked (R235). -/
theorem exec_create_next {s t : State} {a : CreateArgs} (h : exec (.create a) s = .next t) :
    ∃ P, checkConfig a s.freeCount = some P ∧ t = s.restart P := by
  change execCreate a s = .next t at h
  unfold execCreate at h
  split at h
  · cases h
  · next P hP => cases h; exact ⟨P, hP, rfl⟩

end Sys2Proof.Machine
end

section
/-! SUPPORT. Every step keeps the invariants (R41, R301). -/

namespace Sys2Proof.Machine

/-- What the construction check accepts is legal (R236). -/
theorem paramsLegal_of_checkConfig {a : CreateArgs} {k : Nat} {P : Params} (h : checkConfig a k = some P) :
    paramsLegal P := by
  unfold checkConfig at h
  split_ifs at h with hok
  obtain ⟨ver, -, rfl⟩ := Option.map_eq_some_iff.1 h
  simpa [aligned4K] using hok

@[simp] theorem reset_inttrig_get (x : BitVec 22) (k : Fin 32) : (Block.reset x).inttrig.get k = 0 := by
  simp [Block.reset, Vector.get]

/-- The reset state of the block meets its invariants under every parameter record (R40). -/
theorem blockInv_reset (P : Params) (x : BitVec 22) : blockInv P (Block.reset x) := by
  refine ⟨irqsWf_reset _ x, by simp [Block.reset], by simp [Block.reset, cfgLegal, Cfg.reset], fun k => ?_⟩
  rw [reset_inttrig_get]
  rfl

/-- A restart under legal parameters meets the invariant (R235, R237). -/
theorem stateInv_restart {P : Params} (s : State) (h : paramsLegal P) : stateInv (s.restart P) :=
  ⟨h, blockInv_reset P _, trivial⟩

/-- A written level-bits field stays legal, and stays zero when it was and may not be written (R186). -/
theorem writeNlbits_le {may : Bool} {old new : BitVec 4} (h : old.toNat ≤ 8) : (writeNlbits may old new).toNat ≤ 8 := by
  unfold writeNlbits
  split_ifs with hw
  · exact hw.2
  · exact h

/-- A write of `cliccfg` keeps its fields legal (R28, R186). -/
theorem cfgLegal_cfgWrite {P : Params} {c : Cfg} (h : cfgLegal P c) (A : Mode) (v : Word) :
    cfgLegal P (cfgWrite P A c v) := by
  obtain ⟨hm, hs, hu, hn, hs0, hu0⟩ := h
  refine ⟨writeNlbits_le hm, writeNlbits_le hs, writeNlbits_le hu, ?_, fun hno => ?_, fun hno => ?_⟩
  · unfold cfgWrite
    dsimp only
    split_ifs with hw
    · exact hw.2
    · exact hn
  · simp [cfgWrite, writeNlbits, hno, hs0 hno]
  · simp [cfgWrite, writeNlbits, hno, hu0 hno]

/-- A masked trigger register keeps the trigger registers masked (R112, R188). -/
theorem inttrig_masked_set {t : Vector Word 32} (h : ∀ x : Fin 32, t.get x &&& ~~~(0xC0001FFF : Word) = 0) (k : Fin 32)
    (v : Word) (x : Fin 32) : (t.set k (maskInttrig v)).get x &&& ~~~(0xC0001FFF : Word) = 0 := by
  have hget : (t.set k (maskInttrig v)).get x = if k.val = x.val then maskInttrig v else t.get x :=
    Vector.getElem_set k.isLt x.isLt
  rw [hget]
  split_ifs
  · rw [maskInttrig, BitVec.and_assoc]
    exact BitVec.and_zero
  · exact h x

/-- A bus write keeps the block's invariants. -/
theorem blockInv_writeEffect {P : Params} {E : Env} {A : Mode} {b b' : Block} {off : Nat} {n : Width} {v : DWord}
    (h : blockInv P b) (hw : WriteEffect P E A b off n v b') : blockInv P b' := by
  cases hw with
  | dropped => exact h
  | cliccfg =>
    obtain ⟨hwf, hattr, hcfg, htrig⟩ := h
    exact ⟨hwf, hattr, cfgLegal_cfgWrite hcfg A _, htrig⟩
  | inttrigLo x | inttrigHi x =>
    obtain ⟨hwf, hattr, hcfg, htrig⟩ := h
    exact ⟨hwf, hattr, hcfg, inttrig_masked_set htrig _ _⟩
  | lanes => exact lanesWrite_keeps (blockInv P) (fun _ off v hb => blockInv_byteWrite hb off v) _ _ _ _ h

/-- The store of a pending bit keeps the block's invariants (R22). -/
theorem blockInv_setIp {P : Params} {b : Block} (h : blockInv P b) {i : Nat} (hi : i < P.numSources) (f : Bool) :
    blockInv P (b.setIp i f) := blockInv_setIrq h hi (attrLegal_of_inv h i)

/-- A control register has 32 bits of data (R184). -/
theorem ctrlRead_lt {P : Params} {b : Block} {A : Mode} {off : Nat} {n : Width} {v : DWord} {log : List ErrorKind}
    (h : ctrlRead P b A off n = some (v, log)) : v.toNat < 2 ^ (8 * n.bytes) := by
  have hword (x : Word) : (x.setWidth 64).toNat < 2 ^ 32 := by
    rw [BitVec.toNat_setWidth]
    exact (Nat.mod_le _ _).trans_lt x.isLt
  cases hr : ctrlLookup off with
  | none =>
    rw [ctrlRead_none hr] at h
    cases h
    exact Nat.two_pow_pos _
  | some r =>
    simp only [ctrlRead, hr] at h
    split_ifs at h with hn
    obtain rfl := not_ne_iff.1 hn
    cases r <;> cases h <;> exact hword _

/-- Read data have the bits of the access (R180). -/
theorem mmioRead_lt {P : Params} {E : Env} {b : Block} {A : Mode} {off : Nat} {n : Width} {v : DWord}
    {log : List ErrorKind} (h : mmioRead P E b A off n = some (v, log)) : v.toNat < 2 ^ (8 * n.bytes) := by
  unfold mmioRead at h
  split_ifs at h with hpriv halign hlow
  · cases h; exact Nat.two_pow_pos _
  · cases h; exact Nat.two_pow_pos _
  · exact ctrlRead_lt h
  · obtain rfl := congrArg Prod.fst (Option.some.inj h)
    exact lanesRead_lt P b A n.bytes off

theorem stateInv_busRead {A : Mode} {off : Nat} {n : Width} {s t : State} (hinv : stateInv s)
    (h : busRead A off n s = .next t) : stateInv t := by
  obtain ⟨-, -, v, log, hread, rfl⟩ := busRead_next h
  exact ⟨hinv.1, hinv.2.1, mmioRead_lt hread⟩

theorem stateInv_busWrite {A : Mode} {off : Nat} {n : Width} {v : DWord} {s t : State} (hinv : stateInv s)
    (h : busWrite A off n v s = .next t) : stateInv t := by
  obtain ⟨-, -, b, log, hwrite, rfl⟩ := busWrite_next h
  exact ⟨hinv.1, blockInv_writeEffect hinv.2.1 (mmioWrite_effect hwrite), trivial⟩

/-- Every instruction keeps the invariant. -/
theorem stateInv_exec {s t : State} {i : Instr} (hinv : stateInv s) (h : exec i s = .next t) : stateInv t := by
  obtain ⟨A, off, n, -, -, -, hexec⟩ | ⟨A, off, n, v, -, -, -, hexec⟩ | ⟨-, -, hi⟩ := exec_cases i
  · exact stateInv_busRead hinv ((hexec s).symm.trans h)
  · exact stateInv_busWrite hinv ((hexec s).symm.trans h)
  · obtain ⟨hP, hb, -⟩ := hinv
    rcases hi with ⟨k, L, rfl⟩ | rfl | rfl | ⟨a, rfl⟩ | rfl
    · obtain ⟨hk, rfl | ⟨v, rfl⟩⟩ := exec_line_next h
      · exact ⟨hP, hb, trivial⟩
      · exact ⟨hP, blockInv_arbitrate (blockInv_setIp hb hk v), trivial⟩
    · obtain ⟨-, rfl⟩ := exec_arb_eq_next_iff.1 h
      exact ⟨hP, blockInv_arbitrate hb, trivial⟩
    · cases h
      exact ⟨hP, hb, trivial⟩
    · obtain ⟨P, hcheck, rfl⟩ := exec_create_next h
      exact stateInv_restart s (paramsLegal_of_checkConfig hcheck)
    · cases h
      exact stateInv_restart s hP

theorem stateInv_runOp {s t : State} {o : RawOp} (hinv : stateInv s) (h : runOp o s = .next t) : stateInv t := by
  unfold runOp at h
  split at h
  · exact stateInv_exec hinv h
  · next a _ =>
    cases a with
    | read A off n => exact stateInv_busRead hinv h
    | write A off n v => exact stateInv_busWrite hinv h
  · cases h

/-- Settles O48: the sampling of a request touches nothing the invariant reads, and what is then run keeps it. -/
theorem everyStepKeepsTheInvariant : Obligations.EveryStepKeepsTheInvariant := by
  unfold Obligations.EveryStepKeepsTheInvariant
  intro s t hinv h
  unfold step at h
  split at h
  · cases h; exact hinv
  · next q rest _ =>
    have hsample : stateInv (s.sample q rest) := hinv
    split at h
    · exact stateInv_runOp hsample h
    · cases h
      exact ⟨hinv.1, hinv.2.1, trivial⟩
    · cases h

/-- Settles O47: the reset state is the block in its reset state under legal parameters. -/
theorem resetStateMeetsTheInvariant : Obligations.ResetStateMeetsTheInvariant :=
  ⟨by decide, blockInv_reset _ _, trivial⟩

end Sys2Proof.Machine
end

section
/-! SUPPORT. The step: what a request comes to, and the tuples and instructions refused by name (R16, R55, R80, R231, R300). -/

namespace Sys2Proof.Machine

/-- The step runs the operation a request comes to, in the state that samples the request (R17, R64). -/
theorem step_of_issued_op {s : State} {q : Request} {rest : List Request} {o : RawOp}
    (h : issueOf s.params q.input = .op o) : step { s with pending := q :: rest } = runOp o (s.sample q rest) := by
  simp only [step, h]
  rfl

theorem step_of_unrouted {s : State} {q : Request} {rest : List Request} (h : issueOf s.params q.input = .unrouted) :
    step { s with pending := q :: rest } = .next ((s.sample q rest).complete s.blk .nothing []) := by
  simp only [step, h]
  rfl

theorem step_of_overlapping {s : State} {q : Request} {rest : List Request}
    (h : issueOf s.params q.input = .overlapping) :
    step { s with pending := q :: rest } = .refused .overlappingViews := by
  simp only [step, h]

/-- Settles O6: the request is the operation itself, which decodes to the instruction. -/
theorem stepRunsTheDecodedInstruction : Obligations.StepRunsTheDecodedInstruction := by
  unfold Obligations.StepRunsTheDecodedInstruction
  intro s E o rest i hpending hdecode
  have hs : s = { s with pending := { env := E, input := .op o } :: rest } := by rw [← hpending]
  rw [hs, step_of_issued_op (o := o) rfl, runOp_of_instr hdecode]
  rfl

/-- Settles O7: the step looks at the queue first. -/
theorem stepWithNothingIssuedChangesNothing : Obligations.StepWithNothingIssuedChangesNothing := by
  unfold Obligations.StepWithNothingIssuedChangesNothing
  intro s hpending
  simp only [step, hpending]

section Views
variable {P : Params} {addr : Nat}

/-- The views listed at an address are those whose regions hold it (R51). -/
theorem mem_viewsAt {A : Mode} : A ∈ viewsAt P addr ↔ inRegion P A addr := by
  have hmode : A ∈ [Mode.m, Mode.s, Mode.u] := by cases A <;> decide
  simp only [viewsAt, List.mem_filter, hmode, true_and, inView, Bool.and_eq_true, decide_eq_true_eq, and_assoc]
  exact Iff.rfl

theorem viewsAt_nodup : (viewsAt P addr).Nodup := List.Nodup.filter _ (by decide)

theorem viewsAt_eq_nil (h : ∀ B, ¬ inRegion P B addr) : viewsAt P addr = [] :=
  List.eq_nil_iff_forall_not_mem.2 fun B hB => h B (mem_viewsAt.1 hB)

/-- An address inside one region is routed to its view (R231). -/
theorem viewsAt_eq_singleton {A : Mode} (h : inRegion P A addr) (hother : ∀ B, B ≠ A → ¬ inRegion P B addr) :
    viewsAt P addr = [A] := by
  refine List.perm_singleton.1 ((List.perm_ext_iff_of_nodup viewsAt_nodup (List.nodup_singleton A)).2 fun B => ?_)
  rw [mem_viewsAt, List.mem_singleton]
  exact ⟨fun hB => by_contra fun hne => hother B hne hB, fun hB => hB ▸ h⟩

/-- An address inside two regions is in two listed views (R51). -/
theorem viewsAt_of_two {A B : Mode} (hne : A ≠ B) (hA : inRegion P A addr) (hB : inRegion P B addr) :
    ∃ C D rest, viewsAt P addr = C :: D :: rest := by
  have hmemA := mem_viewsAt.2 hA
  have hmemB := mem_viewsAt.2 hB
  match hv : viewsAt P addr with
  | [] => simp [hv] at hmemA
  | [C] =>
    rw [hv, List.mem_singleton] at hmemA hmemB
    exact absurd (hmemA.trans hmemB.symm) hne
  | C :: D :: rest => exact ⟨C, D, rest, rfl⟩

end Views

/-- Settles O8: the views listed at the address are the one whose region holds it, or none. -/
theorem viewsForwardBusAccesses : Obligations.ViewsForwardBusAccesses := by
  unfold Obligations.ViewsForwardBusAccesses
  intro s E rest addr n v
  constructor
  · intro A hsup hlo hhi hother
    have hviews : viewsAt s.params addr = [A] :=
      viewsAt_eq_singleton ⟨hsup, hlo, hhi⟩ fun B hB ⟨hsupB, hin⟩ => hother B hB hsupB hin
    constructor
    · rw [step_of_issued_op (s := s) (o := .read A.code (addr - viewBase s.params A) n) (by simp only [issueOf, hviews]),
        step_of_issued_op rfl]
      rfl
    · rw [step_of_issued_op (s := s) (o := .write A.code (addr - viewBase s.params A) n v) (by simp only [issueOf, hviews]),
        step_of_issued_op rfl]
      rfl
  · intro hnone
    have hviews : viewsAt s.params addr = [] := viewsAt_eq_nil fun B ⟨hsupB, hin⟩ => hnone B hsupB hin
    exact ⟨step_of_unrouted (by simp only [issueOf, hviews]), step_of_unrouted (by simp only [issueOf, hviews])⟩

section Refused
variable {s : State} {A : Mode} (off : Nat) (n : Width) (v : DWord)

/-- A bus access through an absent view is refused (R51; entry 9). -/
theorem busRead_viewAbsent (h : supports s.params A = false) : busRead A off n s = .refused .viewAbsent := by
  simp [busRead, h]

theorem busWrite_viewAbsent (h : supports s.params A = false) : busWrite A off n v s = .refused .viewAbsent := by
  simp [busWrite, h]

/-- A bus access at a `cpu.priv` the machine lacks is refused (U20; entry 10). -/
theorem busRead_privUnsupported (h : supports s.params A = true) (hp : supports s.params s.env.priv = false) :
    busRead A off n s = .refused .privUnsupported := by
  simp [busRead, h, hp]

theorem busWrite_privUnsupported (h : supports s.params A = true) (hp : supports s.params s.env.priv = false) :
    busWrite A off n v s = .refused .privUnsupported := by
  simp [busWrite, h, hp]

end Refused

/-- A row that is a bus access has the outcome its bus operation has at every offset, width and value. -/
theorem exec_eq_of_bus {i : Instr} {A : Mode} {s : State} {r : Host.Outcome State Fault Refusal} (hi : viewOf i = some A)
    (hread : ∀ off n, busRead A off n s = r) (hwrite : ∀ off n v, busWrite A off n v s = r) : exec i s = r := by
  obtain ⟨off, n, hexec⟩ | ⟨off, n, v, hexec⟩ := exec_of_viewOf hi
  · exact (hexec s).trans (hread off n)
  · exact (hexec s).trans (hwrite off n v)

/-- Settles O15: each clause is the first test of its operation that fails. -/
theorem operationsOutsideTheirDomainAreRefused : Obligations.OperationsOutsideTheirDomainAreRefused := by
  unfold Obligations.OperationsOutsideTheirDomainAreRefused
  refine ⟨?_, ?_, ?_, ?_, ?_, ?_, ?_, ?_⟩
  · intro s i A hi habsent
    exact exec_eq_of_bus hi (busRead_viewAbsent · · habsent) (busWrite_viewAbsent · · · habsent)
  · intro s i A hi hview hpriv
    exact exec_eq_of_bus hi (busRead_privUnsupported · · hview hpriv) (busWrite_privUnsupported · · · hview hpriv)
  · intro s A off v n hv habsent
    rw [runOp_read, runOp_write A off s hv]
    exact ⟨busRead_viewAbsent _ _ habsent, busWrite_viewAbsent _ _ _ habsent⟩
  · intro s A off v n hv hview hpriv
    rw [runOp_read, runOp_write A off s hv]
    exact ⟨busRead_privUnsupported _ _ hview hpriv, busWrite_privUnsupported _ _ _ hview hpriv⟩
  · intro s hpriv
    show execArb s = _
    simp [execArb, hpriv]
  · intro s i L hi hpriv hact
    obtain ⟨v, hv⟩ := Option.ne_none_iff_exists'.1 (mt (lineEffect_eq_none_iff s.blk i L).1 hact)
    show execLine i L s = _
    simp [execLine, hi, hv, hpriv]
  · intro s i L hi
    show execLine i L s = _
    simp [execLine, hi]
  · intro s E rest A B addr n v hne hA hB
    obtain ⟨C, D, others, hviews⟩ := viewsAt_of_two hne hA hB
    exact ⟨step_of_overlapping (by simp only [issueOf, hviews]), step_of_overlapping (by simp only [issueOf, hviews])⟩

theorem runOp_of_rejected {o : RawOp} {r : DecodeError} (h : decode o = .rejected r) (s : State) :
    runOp o s = .refused (.notAnOperation r) := by
  simp only [runOp, h]

/-- Settles O58: each clause is one rejection of the decoder. -/
theorem tuplesThatAreNoOperationAreRefused : Obligations.TuplesThatAreNoOperationAreRefused := by
  unfold Obligations.TuplesThatAreNoOperationAreRefused
  refine ⟨fun s off n v => ?_, fun s A off n v h1 h2 h4 h8 => ?_, fun s A off v n hv => ?_, fun s i L hL => ?_⟩
  · exact ⟨runOp_of_rejected rfl s, runOp_of_rejected rfl s⟩
  · have hwidth : Width.ofBytes n = none := by simp [Width.ofBytes, h1, h2, h4, h8]
    exact ⟨runOp_of_rejected (by simp [decode, hwidth]) s, runOp_of_rejected (by simp [decode, hwidth]) s⟩
  · exact runOp_of_rejected (by simp [decode, Nat.not_lt.2 hv]) s
  · have h0 : L ≠ 0 := by omega
    have h1 : L ≠ 1 := by omega
    exact runOp_of_rejected (by simp [decode, h0, h1]) s

/-- Settles O1: the decoder evaluates on each of the fixed tuples. -/
theorem specTuplesDecodeToTheirRows : Obligations.SpecTuplesDecodeToTheirRows := by
  unfold Obligations.SpecTuplesDecodeToTheirRows
  decide

end Sys2Proof.Machine
end

section
/-! SUPPORT. The control registers: the widths they refuse, the fields of `cliccfg` and the stored trigger registers
(R57, R184 to R187). -/

namespace Sys2Proof.Machine

theorem supports_s_iff {P : Params} : supports P .s = true ↔ P.sclicbase ≠ 0 := bne_iff_ne

theorem supports_u_iff {P : Params} : supports P .u = true ↔ P.uclicbase ≠ 0 := bne_iff_ne

section Widths
variable {P : Params} {b : Block} {A : Mode} {off : Nat} {n : Width} {r : CtrlReg}

/-- A register's start gives another width than 4 no meaning (R57). -/
theorem ctrlRead_otherWidth (hr : ctrlLookup off = some r) (hn : n ≠ .w) : ctrlRead P b A off n = none := by
  simp only [ctrlRead, hr, if_pos hn]

theorem ctrlWrite_otherWidth (hr : ctrlLookup off = some r) (hn : n ≠ .w) (v : DWord) :
    ctrlWrite P b A off n v = none := by
  simp only [ctrlWrite, hr, if_pos hn]

/-- The offsets that start a register select one (R82); the converse of `ctrlLookup_none`. -/
theorem ctrlLookup_some (h : off = 0 ∨ (0x40 ≤ off ∧ off ≤ 0xBF ∧ off % 4 = 0)) : ∃ r, ctrlLookup off = some r := by
  unfold ctrlLookup
  split_ifs with h0 hlo hhi
  · exact ⟨_, rfl⟩
  · exact ⟨_, rfl⟩
  · exact ⟨_, rfl⟩
  · omega

end Widths

/-- Settles O12: the access passes the checks of R62 and finds a register, which asks for the width 4. -/
theorem otherWidthsOfControlRegistersAreRefused : Obligations.OtherWidthsOfControlRegistersAreRefused := by
  unfold Obligations.OtherWidthsOfControlRegistersAreRefused
  rintro s A off v n ⟨hview, hpriv, hrank⟩ hn halign hstart hv
  obtain ⟨r, hr⟩ := ctrlLookup_some hstart
  have hlow : off < 0x1000 := by omega
  rw [runOp_read, runOp_write A off s hv]
  constructor
  · simp [busRead, hview, hpriv, mmioRead_ctrl hrank halign hlow, ctrlRead_otherWidth hr hn]
  · simp [busWrite, hview, hpriv, mmioWrite_ctrl hrank halign hlow, ctrlWrite_otherWidth hr hn]

/-- The fields of `cliccfg` at their places in the data lanes (R84, R111). -/
theorem packCfg_setWidth (unl snl mnl : BitVec 4) (nm : BitVec 2) :
    (packCfg unl snl nm mnl).setWidth 64 =
      mnl.setWidth 64 ||| nm.setWidth 64 <<< 4 ||| snl.setWidth 64 <<< 16 ||| unl.setWidth 64 <<< 24 := by
  refine BitVec.eq_of_getLsbD_eq fun i hi => ?_
  simp only [packCfg, BitVec.getLsbD_setWidth, BitVec.getLsbD_append, BitVec.getLsbD_or, BitVec.getLsbD_shiftLeft]
  grind

section
variable {p : Prop} [Decidable p] {w : Nat} (x : BitVec w) (k : Nat)

/-- A field that is not readable reads as zero in every lane (R185). -/
theorem setWidth_ite_zero : (if p then x else 0).setWidth k = if p then x.setWidth k else 0 := by
  split_ifs <;> simp

theorem shiftLeft_ite_zero : (if p then x else 0) <<< k = if p then x <<< k else 0 := by
  split_ifs <;> simp
end

/-- Settles O16: the row is the 4-byte read at offset 0, whose data are the readable fields packed. -/
theorem readOfCliccfgGivesTheReadableFields : Obligations.ReadOfCliccfgGivesTheReadableFields := by
  unfold Obligations.ReadOfCliccfgGivesTheReadableFields
  rintro s A ⟨hview, hpriv, hrank⟩
  have hread : mmioRead s.params s.env s.blk A CtrlReg.cliccfg.offset .w =
      some ((cfgRead s.params A s.blk.cfg).setWidth 64, []) := mmioRead_reg hrank .cliccfg
  refine (busRead_eq hview hpriv hread).trans ?_
  rw [cfgRead, packCfg_setWidth]
  simp only [setWidth_ite_zero, shiftLeft_ite_zero, supports_s_iff, supports_u_iff]
  rfl

/-- A written level-bits field, by what the view may write and the value (R186). -/
theorem writeNlbits_eq {may : Bool} {p : Prop} [Decidable p] (h : may = true ↔ p) (old new : BitVec 4) :
    writeNlbits may old new = if p ∧ new.toNat ≤ 8 then new else old := by
  simp only [writeNlbits, h]

theorem maxNmbits_eq (P : Params) :
    maxNmbits P = (if P.sclicbase ≠ 0 then 1 else 0) + (if P.uclicbase ≠ 0 then 1 else 0) := by
  simp only [maxNmbits, Bool.toNat, ← supports_s_iff, ← supports_u_iff, Bool.cond_eq_ite]

/-- Settles O17: the row is the 4-byte write at offset 0, which treats the four fields one by one. -/
theorem writeOfCliccfgTreatsEachFieldOnItsOwn : Obligations.WriteOfCliccfgTreatsEachFieldOnItsOwn := by
  unfold Obligations.WriteOfCliccfgTreatsEachFieldOnItsOwn
  rintro s A v ⟨hview, hpriv, hrank⟩
  have hvalue : (v.setWidth 64).setWidth 32 = v := by simp
  have hwrite : mmioWrite s.params s.env s.blk A CtrlReg.cliccfg.offset .w (v.setWidth 64) =
      some ({ s.blk with cfg := cfgWrite s.params A s.blk.cfg v }, []) := by
    rw [mmioWrite_reg hrank]
    show some ({ s.blk with cfg := cfgWrite s.params A s.blk.cfg ((v.setWidth 64).setWidth 32) }, []) = _
    rw [hvalue]
  refine (busWrite_eq hview hpriv hwrite).trans ?_
  have hm : (A == .m) = true ↔ A = .m := beq_iff_eq
  have hs : (decide (Mode.s.rank ≤ A.rank) && supports s.params .s) = true ↔
      Mode.s.rank ≤ A.rank ∧ s.params.sclicbase ≠ 0 := by
    rw [Bool.and_eq_true, decide_eq_true_eq, supports_s_iff]
  have hu : (decide (Mode.s.rank ≤ A.rank) && supports s.params .u) = true ↔
      Mode.s.rank ≤ A.rank ∧ s.params.uclicbase ≠ 0 := by
    rw [Bool.and_eq_true, decide_eq_true_eq, supports_u_iff]
  rw [cfgWrite, writeNlbits_eq hm, writeNlbits_eq hs, writeNlbits_eq hu, maxNmbits_eq]
  simp only [and_assoc]
  rfl

/-- Settles O18: each row is a 4-byte read at its register's start, and no view is asked. -/
theorem readOfClicinttrigGivesTheStoredValue : Obligations.ReadOfClicinttrigGivesTheStoredValue := by
  unfold Obligations.ReadOfClicinttrigGivesTheStoredValue
  rintro s A x k ⟨hview, hpriv, hrank⟩
  constructor
  · intro hk
    obtain rfl := eq_trigIndex_lo hk
    refine busRead_eq hview hpriv ((mmioRead_reg hrank _).trans ?_)
    rw [ctrlRead, ctrlLookup_offset]
    rfl
  · intro hk
    obtain rfl := eq_trigIndex_hi hk
    refine busRead_eq hview hpriv ((mmioRead_reg hrank _).trans ?_)
    rw [ctrlRead, ctrlLookup_offset]
    rfl

end Sys2Proof.Machine
end

section
/-! SUPPORT. The bytes of one IRQ: missing, read, written, and read back (R193 to R198, R203, R129). -/

namespace Sys2Proof.Machine

section Missing
variable {s : State} {A : Mode} {i r : Nat} (hview : viewUsable s A) (hi : s.params.numSources ≤ i) (hr : r < 4)
include hview hi hr

/-- A byte read of a register of an IRQ that does not exist gives zero, logged (R203). -/
theorem busRead_missing :
    busRead A (irqOff i r) .b s = .next (s.complete s.blk (.data .b 0) [.invalidIrq]) := by
  rw [busRead_byte hview (irqOff_ge i r), byteRead_missing ((irqOf_irqOff hr).symm ▸ hi)]
  rfl

/-- A byte write of a register of an IRQ that does not exist is dropped, logged (R203). -/
theorem busWrite_missing (v : Byte) :
    busWrite A (irqOff i r) .b (v.setWidth 64) s = .next (s.complete s.blk .nothing [.invalidIrq]) := by
  rw [busWrite_byte hview (irqOff_ge i r), byteWrite_missing ((irqOf_irqOff hr).symm ▸ hi)]

end Missing

/-- Settles O13: the eight rows are the byte accesses at the four offsets of the IRQ, each of which finds it missing. -/
theorem missingIrqReadsZeroAndDropsWrites : Obligations.MissingIrqReadsZeroAndDropsWrites := by
  unfold Obligations.MissingIrqReadsZeroAndDropsWrites
  intro s A i v hview hi
  have hread (r : Nat) (hr : r < 4) := busRead_missing hview hi hr
  have hwrite (r : Nat) (hr : r < 4) := busWrite_missing hview hi hr v
  exact ⟨⟨hread 0 (by decide), hread 1 (by decide), hread 2 (by decide), hread 3 (by decide)⟩,
    ⟨hwrite 0 (by decide), hwrite 1 (by decide), hwrite 2 (by decide), hwrite 3 (by decide)⟩⟩

/-- A single bit in the data lanes (R124, R125). -/
theorem setWidth_flagByte (f : Bool) : (flagByte f).setWidth 64 = if f then (1 : DWord) else 0 := by
  cases f <;> rfl

section Rows
variable {s : State} {A : Mode} {i : Nat} (hview : viewUsable s A) (hi : i < s.params.numSources)
  (hvis : (effMode s.params s.blk i).rank ≤ A.rank)
include hview hi hvis

/-- A read of the enable byte of a visible IRQ gives its bit (R195). -/
theorem exec_rdIe :
    exec (.rdIe A i) s = .next (s.complete s.blk (.data .b (if (s.blk.irq i).ie then 1 else 0)) []) := by
  refine (busRead_byte hview (irqOff_ge i 1)).trans ?_
  rw [byteRead_ie hi hvis, getEnable, setWidth_flagByte]

/-- A read of the control byte of a visible IRQ gives it with the unimplemented low bits 1 (R199). -/
theorem exec_rdCtl :
    exec (.rdCtl A i) s =
      .next (s.complete s.blk (.data .b ((intctlRead (s.blk.irq i).ctl s.params.ctlbits).setWidth 64)) []) := by
  refine (busRead_byte hview (irqOff_ge i 3)).trans ?_
  rw [byteRead_ctl hi hvis, getCtl]

/-- A write of the enable byte of a visible IRQ is the setter of R121. -/
theorem exec_wrIe (v : Byte) :
    exec (.wrIe A i v) s = .next (s.complete (setEnable s.params s.env s.blk i v) .nothing []) := by
  refine (busWrite_byte hview (irqOff_ge i 1) v).trans ?_
  rw [byteWrite_ie hi hvis]

/-- A write of the control byte of a visible IRQ is the setter of R123. -/
theorem exec_wrCtl (v : Byte) :
    exec (.wrCtl A i v) s = .next (s.complete (setCtl s.params s.env s.blk i v) .nothing []) := by
  refine (busWrite_byte hview (irqOff_ge i 3) v).trans ?_
  rw [byteWrite_ctl hi hvis]

end Rows

/-- Settles O20: the rows are the byte reads of registers 0, 1 and 2 of the IRQ, which is visible. -/
theorem readsOfPendingEnableAndAttribute : Obligations.ReadsOfPendingEnableAndAttribute := by
  unfold Obligations.ReadsOfPendingEnableAndAttribute
  intro s A i hview hi hvis
  refine ⟨(busRead_byte hview (irqOff_ge i 0)).trans ?_, exec_rdIe hview hi hvis,
    (busRead_byte hview (irqOff_ge i 2)).trans ?_⟩
  · rw [byteRead_ip hi hvis, getPending, setWidth_flagByte]
    rfl
  · rw [byteRead_attr hi hvis]
    rfl

/-- Settles O23: the row is the byte write of register 1 of the IRQ, whose setter compares the bits. -/
theorem writeOfEnableByteArbitratesOnAChange : Obligations.WriteOfEnableByteArbitratesOnAChange := by
  unfold Obligations.WriteOfEnableByteArbitratesOnAChange
  intro s A i v hview hi hvis
  rw [exec_wrIe hview hi hvis, setEnable]
  rfl

/-- The byte a write of `clicintattr` stores, as a bit pattern (R122). -/
theorem attrNew_eq (P : Params) (b : Block) (i : Nat) (v : Byte) :
    attrNew P b i v = ((attrNewMode P b i v).setWidth 8 <<< 6) ||| (v &&& 0x07) := by
  unfold attrNew
  generalize attrNewMode P b i v = mode
  revert mode v
  decide

/-- Settles O24: the row is the byte write of register 2 of the IRQ, whose setter drops a mode above `cpu.priv` first. -/
theorem writeOfAttributeByteCoercesTheMode : Obligations.WriteOfAttributeByteCoercesTheMode := by
  unfold Obligations.WriteOfAttributeByteCoercesTheMode
  intro s A i v mode new hview hi hvis hmode hnew
  obtain rfl : mode = attrNewMode s.params s.blk i v := hmode
  obtain rfl : new = attrNew s.params s.blk i v := hnew.trans (attrNew_eq _ _ _ _).symm
  refine (busWrite_byte hview (irqOff_ge i 2) v).trans ?_
  rw [byteWrite_attr hi hvis, setAttr, ite_or]
  rfl

/-- The enable bit after a write of its byte (R121). -/
theorem setEnable_ie (P : Params) (E : Env) (b : Block) (i : Nat) (v : Byte) :
    ((setEnable P E b i v).irq i).ie = byteFlag v := by
  unfold setEnable
  split_ifs with h
  · exact h.symm
  · simp

/-- The control byte after a write (R123). -/
theorem setCtl_ctl (P : Params) (E : Env) (b : Block) (i : Nat) (v : Byte) :
    ((setCtl P E b i v).irq i).ctl = v := by
  unfold setCtl
  split_ifs with h
  · exact h.symm
  · simp

theorem effMode_setEnable (P : Params) (E : Env) (b : Block) (i j : Nat) (v : Byte) :
    effMode P (setEnable P E b i v) j = effMode P b j := by
  obtain h | h := setEnable_cases P E b i v <;> simp [h]

theorem effMode_setCtl (P : Params) (E : Env) (b : Block) (i j : Nat) (v : Byte) :
    effMode P (setCtl P E b i v) j = effMode P b j := by
  obtain h | h := setCtl_cases P E b i v
  · rw [h]
  · rw [h, effMode_arbitrate]
    by_cases hj : j = i <;> simp [effMode, hj]

/-- Settles O57: the setters store what the reads then show, and leave the IRQ as visible as it was. -/
theorem writtenBytesReadBackAsCoerced : Obligations.WrittenBytesReadBackAsCoerced := by
  unfold Obligations.WrittenBytesReadBackAsCoerced
  intro s t A i v hview hi hvis
  constructor
  · intro hwrite
    obtain rfl := Host.Outcome.next.inj ((exec_wrIe hview hi hvis v).symm.trans hwrite)
    have hvis' : (effMode s.params (setEnable s.params s.env s.blk i v) i).rank ≤ A.rank := by rwa [effMode_setEnable]
    rw [exec_rdIe (s := s.complete (setEnable s.params s.env s.blk i v) .nothing []) hview hi hvis', complete_blk,
      setEnable_ie, byteFlag]
    simp only [bne_iff_ne, ite_not]
    rfl
  · intro hwrite
    obtain rfl := Host.Outcome.next.inj ((exec_wrCtl hview hi hvis v).symm.trans hwrite)
    have hvis' : (effMode s.params (setCtl s.params s.env s.blk i v) i).rank ≤ A.rank := by rwa [effMode_setCtl]
    rw [exec_rdCtl (s := s.complete (setCtl s.params s.env s.blk i v) .nothing []) hview hi hvis', complete_blk,
      setCtl_ctl]
    rfl

end Sys2Proof.Machine
end

section
/-! SUPPORT. The byte lanes of a wide write: the byte writes one after another (R83, R181, R202). -/

namespace Sys2Proof.Machine

/-- The byte writes of an access of `k` lanes, low byte first. -/
def byteWrites (A : Mode) (off k : Nat) (v : DWord) : List Instr :=
  (List.range k).map fun j => byteWriteInstr A (off + j) (v.extractLsb' (8 * j) 8)

/-- The lanes without the low one are those of the data without their low byte. -/
theorem extractLsb'_laneRest (v : DWord) (j : Nat) :
    v.extractLsb' (8 * (j + 1)) 8 = (laneRest v).extractLsb' (8 * j) 8 := by
  refine BitVec.eq_of_getLsbD_eq fun i hi => ?_
  simp only [BitVec.getLsbD_extractLsb', laneRest, BitVec.getLsbD_ushiftRight]
  congr 2
  omega

theorem byteWrites_succ (A : Mode) (off k : Nat) (v : DWord) :
    byteWrites A off (k + 1) v = byteWriteInstr A off (laneLow v) :: byteWrites A (off + 1) k (laneRest v) := by
  have hlow : v.extractLsb' 0 8 = laneLow v := BitVec.setWidth_eq_extractLsb' (by decide) |>.symm
  simp only [byteWrites, List.range_succ_eq_map, List.map_cons, List.map_map, Nat.mul_zero, Nat.add_zero, hlow]
  congr 1
  refine List.map_congr_left fun j _ => ?_
  rw [Function.comp_apply, Nat.succ_eq_add_one, extractLsb'_laneRest, Nat.add_right_comm, Nat.add_assoc]

theorem runAll_cons_next {i : Instr} {rest : List Instr} {s t : State} (h : exec i s = .next t) :
    runAll (i :: rest) s = runAll rest t := by
  simp only [runAll, h]

@[simp] theorem complete_complete (s : State) (b b' : Block) (r r' : Result) (l l' : List ErrorKind) :
    (s.complete b r l).complete b' r' l' = s.complete b' r' l' := rfl

/-- The block the lanes leave, lane by lane (R202). -/
theorem lanesWrite_succ_fst (P : Params) (E : Env) (A : Mode) (k : Nat) (b : Block) (off : Nat) (v : DWord) :
    (lanesWrite P E A (k + 1) b off v).1 =
      (lanesWrite P E A k (byteWrite P E A b off (laneLow v)).1 (off + 1) (laneRest v)).1 := rfl

/-- The byte writes leave what their first one and then the others leave. -/
theorem runAll_byteWrites_succ {A : Mode} {off k : Nat} {v : DWord} {s t : State} (hoff : 0x1000 ≤ off)
    (h : busWrite A off .b ((laneLow v).setWidth 64) s = .next t) :
    runAll (byteWrites A off (k + 1) v) s = runAll (byteWrites A (off + 1) k (laneRest v)) t := by
  rw [byteWrites_succ, runAll_cons_next ((exec_byteWriteInstr hoff _).trans h)]

/-- Through a usable view the byte writes leave what the lanes leave (R202). -/
theorem runAll_byteWrites {A : Mode} (k : Nat) : ∀ {off : Nat} {s : State} (v : DWord), viewUsable s A → 0x1000 ≤ off →
    ∃ log, runAll (byteWrites A off (k + 1) v) s =
      .next (s.complete (lanesWrite s.params s.env A (k + 1) s.blk off v).1 .nothing log) := by
  induction k with
  | zero =>
    intro off s v hview hoff
    rw [runAll_byteWrites_succ hoff (busWrite_byte hview hoff _)]
    exact ⟨_, rfl⟩
  | succ k ih =>
    intro off s v hview hoff
    obtain ⟨log, hrest⟩ := ih (off := off + 1) (s := s.complete _ .nothing _) (laneRest v) hview (by omega)
    rw [runAll_byteWrites_succ hoff (busWrite_byte hview hoff _), hrest, lanesWrite_succ_fst, complete_complete]
    exact ⟨log, rfl⟩

/-- Through a view above `cpu.priv` each byte write is denied (R182). -/
theorem runAll_byteWrites_denied {A : Mode} (k : Nat) : ∀ {off : Nat} {s : State} (v : DWord),
    supports s.params A = true → supports s.params s.env.priv = true → s.env.priv.rank < A.rank → 0x1000 ≤ off →
    ∃ log, runAll (byteWrites A off (k + 1) v) s = .next (s.complete s.blk .nothing log) := by
  induction k with
  | zero =>
    intro off s v hview hpriv hrank hoff
    rw [runAll_byteWrites_succ hoff (busWrite_denied hview hpriv hrank _ _ _)]
    exact ⟨_, rfl⟩
  | succ k ih =>
    intro off s v hview hpriv hrank hoff
    obtain ⟨log, hrest⟩ := ih (off := off + 1) (s := s.complete s.blk .nothing _) (laneRest v) hview hpriv hrank (by omega)
    rw [runAll_byteWrites_succ hoff (busWrite_denied hview hpriv hrank _ _ _), hrest]
    exact ⟨log, rfl⟩

/-- Settles O27: a denied view drops the wide write and each byte write alike; through a usable one the lanes are the byte
writes. -/
theorem wideWriteIsTheSequenceOfByteWrites : Obligations.WideWriteIsTheSequenceOfByteWrites := by
  unfold Obligations.WideWriteIsTheSequenceOfByteWrites
  intro s A off n v hview hpriv hwf
  rw [WellFormed, Bool.and_eq_true] at hwf
  obtain ⟨hn, hoff, halign⟩ := wideOk_iff.1 hwf.1
  obtain ⟨k, hk⟩ : ∃ k, n.bytes = k + 1 := Nat.exists_eq_succ_of_ne_zero (by cases n <;> decide)
  by_cases hrank : A.rank ≤ s.env.priv.rank
  · obtain ⟨log, hrun⟩ := runAll_byteWrites k v ⟨hview, hpriv, hrank⟩ hoff
    rw [← hk] at hrun
    exact ⟨_, _, hrun, busWrite_eq hview hpriv (mmioWrite_perIrq hrank halign hoff)⟩
  · have hdenied := Nat.not_le.1 hrank
    obtain ⟨log, hrun⟩ := runAll_byteWrites_denied k v hview hpriv hdenied hoff
    rw [← hk] at hrun
    exact ⟨_, _, hrun, busWrite_denied hview hpriv hdenied off n v⟩

end Sys2Proof.Machine
end

section
/-! SUPPORT. What an arbitration and a line event repeat or leave: without a candidate, a second time, along the active set
(R108, R147, R215, R220). -/

namespace Sys2Proof.Machine

/-- Settles O31: an entry the scan selected would stand for an eligible interrupt. -/
theorem arbiterWithoutCandidateChangesNothing : Obligations.ArbiterWithoutCandidateChangesNothing := by
  unfold Obligations.ArbiterWithoutCandidateChangesNothing
  rintro s ⟨-, ⟨hw, -⟩, -⟩ hpriv hnone
  have harb : arbitrate s.params s.env s.blk = s.blk := by
    obtain ⟨-, harb⟩ | ⟨e, hscan, -⟩ := arbitrate_cases s.params s.env s.blk
    · exact harb
    · obtain ⟨l₁, l₂, hl, hip, hstop, -⟩ := scan_some hscan
      have hmem : e ∈ activeSet s.params s.blk := hl ▸ List.mem_append_right l₁ List.mem_cons_self
      rw [stops_of_mem_activeSet hmem] at hstop
      exact absurd ((eligible_iff hw e.irq).2 ⟨eq_of_mem_activeSet hmem ▸ hmem, hip, hstop⟩) (hnone e.irq)
  rw [exec_arb hpriv, harb]
  rfl

/-- A post that consumes nothing writes `exccode` and raises the line (R213, R214). -/
theorem post_of_not_autoClears {P : Params} {b : Block} {e : Entry} (h : ¬ autoClears (b.irq e.irq).attr = true) :
    post P b e = { b with
      exccode := encodeExccode e.irq (entryMode e.cfg) (entryLevel P b.cfg e), cpuLine := true } := by
  rw [post, if_neg h]

/-- An arbitration that left every pending bit alone leaves its own result alone (R220). -/
theorem arbitrate_arbitrate {P : Params} {E : Env} {b : Block}
    (h : ∀ j, ((arbitrate P E b).irq j).ip = (b.irq j).ip) :
    arbitrate P E (arbitrate P E b) = arbitrate P E b := by
  obtain ⟨-, harb⟩ | ⟨e, hscan, harb⟩ := arbitrate_cases P E b
  · rw [harb, harb]
  · obtain ⟨-, -, -, hip, -⟩ := scan_some hscan
    have hkeep : ¬ autoClears (b.irq e.irq).attr = true := fun hclear => by
      have hnow := h e.irq
      rw [harb, post_irq, if_pos ⟨rfl, hclear⟩, hip] at hnow
      cases hnow
    have hpost := post_of_not_autoClears (P := P) hkeep
    have hscan' : scan P E (post P b e) (activeSet P (post P b e)) = some e := by
      refine Eq.trans ?_ hscan
      rw [hpost]
      exact scan_congr (b := { b with exccode := _, cpuLine := true }) (c := b) rfl fun _ _ => rfl
    have harb' : arbitrate P E (post P b e) = post P (post P b e) e := by
      unfold arbitrate
      rw [hscan']
    rw [harb, harb', hpost]
    exact post_of_not_autoClears hkeep

/-- Settles O33: the block the first arbitration left is the one the second leaves. -/
theorem arbitrationThatConsumesNothingRepeats : Obligations.ArbitrationThatConsumesNothingRepeats := by
  unfold Obligations.ArbitrationThatConsumesNothingRepeats
  intro s t hexec hip
  obtain ⟨hpriv, rfl⟩ := exec_arb_eq_next_iff.1 hexec
  refine (exec_arb (s := s.complete (arbitrate s.params s.env s.blk) .nothing []) hpriv).trans ?_
  exact congrArg (Host.Outcome.next <| s.complete · .nothing []) (arbitrate_arbitrate hip)

/-- Settles O34: the meaning of the row, written out. -/
theorem acceptReturnsExccodeAndLowersTheLine : Obligations.AcceptReturnsExccodeAndLowersTheLine := fun _ => rfl

/-- Settles O35: the entries after one have no higher key, and what stops at a key stops at every lower one. -/
theorem stoppedEntriesStayStopped : Obligations.StoppedEntriesStayStopped := by
  unfold Obligations.StoppedEntriesStayStopped
  intro P E b l₁ l₂ x hl hstop y hy
  have hx : x ∈ activeSet P b := hl ▸ List.mem_append_right l₁ List.mem_cons_self
  have hmem : y ∈ activeSet P b := hl ▸ List.mem_append_right l₁ (List.mem_cons_of_mem x hy)
  have hkey : entryKey y ≤ entryKey x := by
    have hsorted : (activeSet P b).Pairwise (fun x y => entryKey y ≤ entryKey x) := sortActive_pairwise _
    rw [hl] at hsorted
    exact (List.pairwise_cons.1 (List.pairwise_append.1 hsorted).2.1).1 y hy
  by_contra hgo
  have hx' := not_stops_of_entryKey_le hx hmem hkey (Bool.eq_false_iff.2 hgo)
  rw [hstop] at hx'
  cases hx'

/-- The active set depends on the enable bits and on what makes up an `intcfg` only (R140). -/
theorem activeSet_congr {P : Params} {b c : Block} (hP : P.numSources ≤ 4096) (hb : irqsWf P.numSources b.irqs)
    (hc : irqsWf P.numSources c.irqs) (hie : ∀ j, (b.irq j).ie = (c.irq j).ie)
    (hcfg : ∀ j, intcfgOf P b j = intcfgOf P c j) : activeSet P b = activeSet P c :=
  eq_of_strict (activeSet_strict hP hb) (activeSet_strict hP hc) fun e => by
    rw [mem_activeSet hb.1, mem_activeSet hc.1, hie, hcfg]

@[simp] theorem intcfgOf_arbitrate (P : Params) (E : Env) (b : Block) (j : Nat) :
    intcfgOf P (arbitrate P E b) j = intcfgOf P b j := by simp [intcfgOf]

@[simp] theorem intcfgOf_setIp (P : Params) (b : Block) (i j : Nat) (f : Bool) :
    intcfgOf P (b.setIp i f) j = intcfgOf P b j := by
  by_cases h : j = i <;> simp [intcfgOf, effMode, h]

/-- Settles O29: a line event changes pending bits only, which no entry of the active set shows. -/
theorem lineEventKeepsTheActiveSet : Obligations.LineEventKeepsTheActiveSet := by
  unfold Obligations.LineEventKeepsTheActiveSet
  rintro s t i L ⟨⟨-, hP, -⟩, hinv, -⟩ hexec
  obtain ⟨hi, rfl | ⟨v, rfl⟩⟩ := exec_line_next hexec
  · rfl
  · refine activeSet_congr hP (blockInv_arbitrate (blockInv_setIp hinv hi v)).1 hinv.1 (fun j => ?_) fun j => by simp
    by_cases hj : j = i <;> simp [hj]

end Sys2Proof.Machine
end

section
/-! SUPPORT. The codec and the mode tables as numbers (R103, R107, R109, R160, R161). -/

namespace Sys2Proof.Machine

/-- Settles O38: the encoded priority is the number the three keys make, in this order. -/
theorem encodedPriorityOrdersByModeControlIrq : Obligations.EncodedPriorityOrdersByModeControlIrq := by
  unfold Obligations.EncodedPriorityOrdersByModeControlIrq
  intro E F c d i j hi hj
  have hc := c.isLt
  have hd := d.isLt
  rw [BitVec.lt_def, encodePriority_toNat, encodePriority_toNat, intcfg_toNat, intcfg_toNat, Nat.mod_eq_of_lt hi,
    Nat.mod_eq_of_lt hj, show E = F ↔ E.rank = F.rank from ⟨congrArg _, rank_inj⟩, BitVec.lt_def, ← BitVec.toNat_inj]
  omega

/-- Settles O39: the level as a number, at the two ends of its masks, and along the order of the control bytes. -/
theorem levelKeepsTheHighBitsAndFillsTheRest : Obligations.LevelKeepsTheHighBitsAndFillsTheRest := by
  unfold Obligations.LevelKeepsTheHighBitsAndFillsTheRest
  intro c d nlbits ctlbits _ _
  refine ⟨level_toNat c nlbits ctlbits, fun hnone => BitVec.eq_of_toNat_eq ?_, fun hall => BitVec.eq_of_toNat_eq ?_,
    fun hle => level_mono hle nlbits ctlbits⟩
  · rw [level_toNat, hnone, Nat.div_eq_of_lt c.isLt]
    rfl
  · rw [level_toNat, hall]
    simp

/-- The value handed to the hart as a number (R109). -/
theorem encodeExccode_toNat {i : Nat} (mode : Mode) (l : Byte) (hi : i < 4096) :
    (encodeExccode i mode l).toNat = i + mode.rank * 2 ^ 12 + l.toNat * 2 ^ 14 := by
  have hmode : (mode.code ++ BitVec.ofNat 12 i).toNat = mode.rank * 2 ^ 12 + i := by
    rw [BitVec.toNat_append, BitVec.toNat_ofNat, Nat.mod_eq_of_lt hi, ← Nat.shiftLeft_add_eq_or_of_lt hi, Nat.shiftLeft_eq]
    rfl
  rw [encodeExccode, BitVec.toNat_append, ← Nat.shiftLeft_add_eq_or_of_lt (BitVec.isLt _), Nat.shiftLeft_eq, hmode]
  omega

/-- Settles O40: each part is cut out of the number again at its place. -/
theorem exccodeDeterminesIrqModeAndLevel : Obligations.ExccodeDeterminesIrqModeAndLevel := by
  unfold Obligations.ExccodeDeterminesIrqModeAndLevel
  intro i mode l hi
  have hval := encodeExccode_toNat mode l hi
  refine ⟨?_, hval⟩
  have hmode : mode.rank < 4 := mode.code.isLt
  have hl := l.isLt
  refine Prod.ext ?_ (Prod.ext (BitVec.eq_of_toNat_eq ?_) (BitVec.eq_of_toNat_eq ?_))
  · simp only [decodeExccode, BitVec.extractLsb'_toNat, hval, Nat.shiftRight_eq_div_pow]
    omega
  · simp only [decodeExccode, BitVec.extractLsb'_toNat, hval, Nat.shiftRight_eq_div_pow]
    show _ = mode.rank
    omega
  · simp only [decodeExccode, BitVec.extractLsb'_toNat, hval, Nat.shiftRight_eq_div_pow]
    omega

/-- The mode `low` by the base address of the S view (R160). -/
theorem lowMode_eq (P : Params) : lowMode P = if P.sclicbase ≠ 0 then .s else .u := by
  simp only [lowMode, supports_s_iff]

/-- Settles O41: each row of the table is one branch, and `low` is the mode of the base addresses. -/
theorem effectiveModeFollowsTheTable : Obligations.EffectiveModeFollowsTheTable := by
  unfold Obligations.EffectiveModeFollowsTheTable
  intro P
  refine ⟨fun m => rfl, ?_, rfl, rfl, rfl, rfl⟩
  rw [← lowMode_eq]
  rintro m (rfl | rfl) <;> rfl

/-- Settles O42: each row of the table is one branch, and `low` is the mode of the base addresses. -/
theorem writtenModeIsCoercedByTheTable : Obligations.WrittenModeIsCoercedByTheTable := by
  unfold Obligations.WrittenModeIsCoercedByTheTable
  intro P old
  refine ⟨fun raw => rfl, ?_, rfl, rfl, rfl, rfl, rfl, rfl⟩
  have hlow : (lowMode P).code = if P.sclicbase ≠ 0 then 1 else 0 := by
    rw [lowMode_eq, apply_ite Mode.code]
    rfl
  rw [← hlow]
  rintro raw (rfl | rfl) <;> rfl

end Sys2Proof.Machine
end

section
/-! SUPPORT. Construction and reset (R40, R235 to R237). -/

namespace Sys2Proof.Machine

theorem aligned4K_iff {a : Nat} : aligned4K a = true ↔ a % 0x1000 = 0 := beq_iff_eq

/-- The legal versions (R9). -/
theorem versionOf_eq_none_iff {v : String} : versionOf v = none ↔ v ≠ "v0.9" ∧ v ≠ "v0.9-jmp" := by
  unfold versionOf
  split_ifs with h h'
  · simp [h]
  · simp [h']
  · simp [h, h']

/-- What the construction check makes of legal arguments (R235, R236). -/
theorem checkConfig_of_legal {a : CreateArgs} {ver : Version} (k : Nat)
    (hargs : 1 ≤ a.numSources ∧ a.numSources ≤ 4096 ∧ a.ctlbits ≤ 8 ∧ aligned4K a.mclicbase = true ∧
      aligned4K a.sclicbase = true ∧ aligned4K a.uclicbase = true) (hver : versionOf a.version = some ver) :
    checkConfig a k = some
      { numSources := a.numSources, ctlbits := a.ctlbits, version := ver, mclicbase := a.mclicbase,
        sclicbase := a.sclicbase, uclicbase := a.uclicbase, hartId := a.hartId,
        shvEnabled := Config.shvEnabledAtCreate k, jumpTable := Config.jumpTableAtCreate k } := by
  rw [checkConfig, if_pos hargs, hver]
  rfl

/-- A construction whose arguments pass the check completes with the block restarted (R235). -/
theorem exec_create {a : CreateArgs} {s : State} {P : Params} (h : checkConfig a s.freeCount = some P) :
    exec (.create a) s = .next (s.restart P) := by
  show execCreate a s = _
  rw [execCreate, h]

/-- Settles O43: the check passes and gives the record of the arguments, under which the block restarts. -/
theorem createFixesTheParametersAndResets : Obligations.CreateFixesTheParametersAndResets := by
  unfold Obligations.CreateFixesTheParametersAndResets
  intro s a hlo hhi hctl hm hs hu hver
  have hversion : versionOf a.version = some (if a.version = "v0.9" then .v09 else .v09jmp) := by
    unfold versionOf
    rcases hver with h | h <;> simp [h]
  have hcheck := checkConfig_of_legal s.freeCount
    ⟨hlo, hhi, hctl, aligned4K_iff.2 hm, aligned4K_iff.2 hs, aligned4K_iff.2 hu⟩ hversion
  exact ⟨_, exec_create hcheck, rfl, fun i => rfl, rfl, rfl, reset_inttrig_get _, rfl, rfl, rfl, rfl, rfl⟩

/-- Settles O44: each illegal argument fails a test of the construction check. -/
theorem createWithIllegalArgumentsIsFatal : Obligations.CreateWithIllegalArgumentsIsFatal := by
  unfold Obligations.CreateWithIllegalArgumentsIsFatal
  intro s a hbad
  have hcheck : checkConfig a s.freeCount = none := by
    unfold checkConfig
    split_ifs with hok
    · obtain ⟨hlo, hhi, hctl, hm, hs, hu⟩ := hok
      rw [aligned4K_iff] at hm hs hu
      rw [Option.map_eq_none_iff, versionOf_eq_none_iff]
      rcases hbad with h | h | h | hver | h | h | h
      · omega
      · omega
      · omega
      · exact hver
      · exact absurd hm h
      · exact absurd hs h
      · exact absurd hu h
    · rfl
  show execCreate a s = _
  rw [execCreate, hcheck]

/-- Settles O45: the block restarts under the parameters it had. -/
theorem resetRestoresTheResetState : Obligations.ResetRestoresTheResetState := by
  unfold Obligations.ResetRestoresTheResetState
  exact fun s =>
    ⟨s.restart s.params, rfl, rfl, fun i => rfl, rfl, rfl, reset_inttrig_get _, rfl, rfl, rfl, rfl, rfl⟩

/-- Settles O46: an IRQ that is not listed holds the reset values, and none is listed. -/
theorem resetStateHoldsTheTableValues : Obligations.ResetStateHoldsTheTableValues := by
  unfold Obligations.ResetStateHoldsTheTableValues
  exact ⟨fun i => rfl, rfl, reset_inttrig_get _, rfl, rfl⟩

end Sys2Proof.Machine
end

section
/-! SUPPORT. Reads and completion: every row completes in its domain, and a read changes no state and shows nothing of a
hidden IRQ (R59, R163, R299). -/

namespace Sys2Proof.Machine

/-- The byte offset of an access. -/
def accessOff : Unlisted → Nat
  | .read _ off _ => off
  | .write _ off _ _ => off

/-- The width of an access. -/
def accessWidth : Unlisted → Width
  | .read _ _ n => n
  | .write _ _ n _ => n

/-- The rows access the control region with 4 bytes only (R55, R57). -/
theorem accessWidth_of_row {i : Instr} {a : Unlisted} (hwf : WellFormed i = true) (h : accessOf i = some a)
    (hlow : accessOff a < 0x1000) : accessWidth a = .w := by
  cases i with
  | rdCliccfg | wrCliccfg | rdInttrigLo | wrInttrigLo | rdInttrigHi | wrInttrigHi => cases h; rfl
  | rdIp | wrIp | rdIe | wrIe | rdAttr | wrAttr | rdCtl | wrCtl =>
    cases h
    exact absurd hlow (Nat.not_lt.2 (irqOff_ge _ _))
  | rdWide =>
    cases h
    exact absurd hlow (Nat.not_lt.2 (wideOk_iff.1 hwf).2.1)
  | wrWide =>
    cases h
    rw [WellFormed, Bool.and_eq_true] at hwf
    exact absurd hlow (Nat.not_lt.2 (wideOk_iff.1 hwf.1).2.1)
  | line | arb | ack | create | reset => cases h

/-- A read that asks the control region for 4 bytes only has a meaning (R57). -/
theorem mmioRead_some {n : Width} {off : Nat} (hn : off < 0x1000 → n = .w) (P : Params) (E : Env) (b : Block) (A : Mode) :
    ∃ v log, mmioRead P E b A off n = some (v, log) := by
  unfold mmioRead
  split_ifs with hpriv halign hlow
  · exact ⟨_, _, rfl⟩
  · exact ⟨_, _, rfl⟩
  · obtain rfl := hn hlow
    cases hr : ctrlLookup off with
    | none => exact ⟨_, _, ctrlRead_none hr .w⟩
    | some r => simp only [ctrlRead, hr]; cases r <;> exact ⟨_, _, rfl⟩
  · exact ⟨_, _, rfl⟩

/-- A write that asks the control region for 4 bytes only has a meaning (R57). -/
theorem mmioWrite_some {n : Width} {off : Nat} (hn : off < 0x1000 → n = .w) (P : Params) (E : Env) (b : Block) (A : Mode)
    (v : DWord) : ∃ b' log, mmioWrite P E b A off n v = some (b', log) := by
  unfold mmioWrite
  split_ifs with hpriv halign hlow
  · exact ⟨_, _, rfl⟩
  · exact ⟨_, _, rfl⟩
  · obtain rfl := hn hlow
    cases hr : ctrlLookup off with
    | none => exact ⟨_, _, ctrlWrite_none hr .w v⟩
    | some r => simp only [ctrlWrite, hr]; cases r <;> exact ⟨_, _, rfl⟩
  · exact ⟨_, _, rfl⟩

theorem inDomain_of_viewOf {P : Params} {E : Env} {i : Instr} {A : Mode} (h : viewOf i = some A)
    (hdom : inDomain P E i = true) : supports P A = true ∧ supports P E.priv = true := by
  rw [← Bool.and_eq_true]
  cases i <;> cases h <;> exact hdom

/-- The construction check does not depend on the number of the construction (R236). -/
theorem checkConfig_isSome (a : CreateArgs) (k l : Nat) : (checkConfig a k).isSome = (checkConfig a l).isSome := by
  unfold checkConfig
  split_ifs
  · rw [Option.isSome_map, Option.isSome_map]
  · rfl

/-- Settles O49: a row reads or writes an access that has a meaning; the other five ask for the line, the privilege or the
construction check. -/
theorem operationsInTheirDomainComplete : Obligations.OperationsInTheirDomainComplete := by
  unfold Obligations.OperationsInTheirDomainComplete
  intro s i hwf hdom
  obtain ⟨A, off, n, hacc, hview, -, hexec⟩ | ⟨A, off, n, v, hacc, hview, -, hexec⟩ | ⟨-, -, hi⟩ := exec_cases i
  · obtain ⟨hA, hpriv⟩ := inDomain_of_viewOf hview hdom
    obtain ⟨v, log, hread⟩ := mmioRead_some (accessWidth_of_row hwf hacc) s.params s.env s.blk A
    exact ⟨_, (hexec s).trans (busRead_eq hA hpriv hread)⟩
  · obtain ⟨hA, hpriv⟩ := inDomain_of_viewOf hview hdom
    obtain ⟨b, log, hwrite⟩ := mmioWrite_some (accessWidth_of_row hwf hacc) s.params s.env s.blk A v
    exact ⟨_, (hexec s).trans (busWrite_eq hA hpriv hwrite)⟩
  · rcases hi with ⟨k, L, rfl⟩ | rfl | rfl | ⟨a, rfl⟩ | rfl
    · rw [inDomain, Bool.and_eq_true, decide_eq_true_eq] at hdom
      exact ⟨_, exec_line hdom.1 hdom.2⟩
    · exact ⟨_, exec_arb hdom⟩
    · exact ⟨_, rfl⟩
    · have hok : (checkConfig a s.freeCount).isSome = true := (checkConfig_isSome a _ 0).trans hdom
      obtain ⟨P, hP⟩ := Option.isSome_iff_exists.1 hok
      exact ⟨_, exec_create hP⟩
    · exact ⟨_, rfl⟩

/-- Settles O50: a bus read completes with the block it found. -/
theorem readsChangeNoState : Obligations.ReadsChangeNoState := by
  unfold Obligations.ReadsChangeNoState
  intro s t
  constructor
  · intro i hread hexec
    obtain ⟨A, off, n, -, hbus⟩ := exec_of_isRead hread
    obtain ⟨-, -, v, log, -, rfl⟩ := busRead_next ((hbus s).symm.trans hexec)
    rfl
  · intro A off n hrun
    rw [runOp_read] at hrun
    obtain ⟨-, -, v, log, -, rfl⟩ := busRead_next hrun
    rfl

section Hidden
variable {A : Mode} {s t : State} (h : sameThrough A s t)
include h

/-- A byte read through the view gives the same in two machines that differ in hidden IRQs only (R163). -/
theorem byteRead_congr (off : Nat) : byteRead s.params s.blk A off = byteRead t.params t.blk A off := by
  obtain ⟨hP, -, hcfg, -, hirq⟩ := h
  by_cases hi : irqOf off < s.params.numSources
  · rcases hirq (irqOf off) with heq | ⟨hs, ht⟩
    · have heff : effMode s.params s.blk (irqOf off) = effMode t.params t.blk (irqOf off) := by
        rw [effMode, effMode, hP, hcfg, heq]
      rw [byteRead, visible, heff, getPending, getEnable, getAttr, getCtl, heq, hP]
      rfl
    · rw [byteRead_invisible hi hs, byteRead_invisible (hP ▸ hi) ht]
  · have hmissing := Nat.not_lt.1 hi
    rw [byteRead_missing hmissing, byteRead_missing (hP ▸ hmissing)]

theorem lanesRead_congr (k off : Nat) : lanesRead s.params s.blk A k off = lanesRead t.params t.blk A k off := by
  induction k generalizing off with
  | zero => rfl
  | succ k ih => rw [lanesRead, lanesRead, byteRead_congr h, ih]

/-- A read through the view gives the same in two machines that differ in hidden IRQs only (R163). -/
theorem mmioRead_congr (off : Nat) (n : Width) :
    mmioRead s.params s.env s.blk A off n = mmioRead t.params t.env t.blk A off n := by
  have hlanes := lanesRead_congr h
  obtain ⟨hP, hE, hcfg, htrig, -⟩ := h
  have hctrl : ctrlRead s.params s.blk A off n = ctrlRead t.params t.blk A off n := by
    simp only [ctrlRead, hP, hcfg, htrig]
  rw [mmioRead, mmioRead, hctrl, hlanes, hE]

end Hidden

/-- Settles O51: the row is a bus read, whose data and log are the same in the two machines. -/
theorem readsDoNotDependOnHiddenIrqs : Obligations.ReadsDoNotDependOnHiddenIrqs := by
  unfold Obligations.ReadsDoNotDependOnHiddenIrqs
  intro A s s' t i hsame hread hview hexec
  obtain ⟨B, off, n, hB, hbus⟩ := exec_of_isRead hread
  obtain rfl : B = A := Option.some.inj (hB.symm.trans hview)
  obtain ⟨hA, hpriv, v, log, hmmio, rfl⟩ := busRead_next ((hbus s).symm.trans hexec)
  rw [mmioRead_congr hsame] at hmmio
  obtain ⟨hP, hE, -⟩ := hsame
  exact ⟨_, (hbus s').trans (busRead_eq (hP ▸ hA) (hP ▸ hE ▸ hpriv) hmmio), rfl, rfl⟩

end Sys2Proof.Machine
end

section
/-! SUPPORT. What the byte steps of a write store: one register of one visible IRQ at a time, each followed by its
arbitration (R181, R192, R202). -/

namespace Sys2Proof.Machine

/-- The stored registers of an IRQ as bytes, by the register selector of R81. -/
def IrqRegs.byteAt (r : IrqRegs) : Nat → Byte
  | 0 => flagByte r.ip
  | 1 => flagByte r.ie
  | 2 => r.attr
  | _ => r.ctl

theorem flagByte_inj {f g : Bool} : flagByte f = flagByte g ↔ f = g := by cases f <;> cases g <;> decide

section
variable (r : IrqRegs) (f : Bool) (v : Byte) {k : Nat}

theorem byteAt_ip_ne (hk : k ≠ 0) : { r with ip := f }.byteAt k = r.byteAt k := by
  match k, hk with
  | 1, _ | 2, _ | _ + 3, _ => rfl

theorem byteAt_ie_ne (hk : k ≠ 1) : { r with ie := f }.byteAt k = r.byteAt k := by
  match k, hk with
  | 0, _ | 2, _ | _ + 3, _ => rfl

theorem byteAt_attr_ne (hk : k ≠ 2) : { r with attr := v }.byteAt k = r.byteAt k := by
  match k, hk with
  | 0, _ | 1, _ | _ + 3, _ => rfl

theorem byteAt_ctl_ne (hk : k < 3) : { r with ctl := v }.byteAt k = r.byteAt k := by
  match k, hk with
  | 0, _ | 1, _ | 2, _ => rfl

end

/-- An arbitration changes pending bits only (R219). -/
theorem arbitrate_byteAt (P : Params) (E : Env) (b : Block) (j : Nat) {k : Nat} (hk : k ≠ 0) :
    ((arbitrate P E b).irq j).byteAt k = (b.irq j).byteAt k := by
  match k, hk with
  | 1, _ => exact congrArg flagByte (arbitrate_ie P E b j)
  | 2, _ => exact arbitrate_attr P E b j
  | _ + 3, _ => exact arbitrate_ctl P E b j

/-- What a byte step that reaches its setter stores before it arbitrates: other registers of an existing, visible IRQ,
which differ from the old ones at the byte's own register only, and a new mode not above `cpu.priv` (R122, R192). -/
structure ByteStore (P : Params) (E : Env) (A : Mode) (b : Block) (off : Nat) (r : IrqRegs) : Prop where
  irq_lt : irqOf off < P.numSources
  isVisible : (effMode P b (irqOf off)).rank ≤ A.rank
  byteAt_ne : ∀ k < 4, k ≠ selOf off → r.byteAt k = (b.irq (irqOf off)).byteAt k
  mode_le : r.attr = (b.irq (irqOf off)).attr ∨ (attrMode r.attr).toNat ≤ E.priv.rank

/-- Everything a byte step can do: nothing, or store and arbitrate. -/
theorem byteWrite_store (P : Params) (E : Env) (A : Mode) (b : Block) (off : Nat) (v : Byte) :
    (byteWrite P E A b off v).1 = b ∨
      ∃ r, ByteStore P E A b off r ∧ (byteWrite P E A b off v).1 = arbitrate P E (b.setIrq (irqOf off) r) := by
  unfold byteWrite
  split
  · exact .inl rfl
  next hmiss =>
  split
  · exact .inl rfl
  next hhid =>
  have hlt := Nat.not_le.1 hmiss
  have hvis : (effMode P b (irqOf off)).rank ≤ A.rank := visible_iff.1 (by simpa using hhid)
  split_ifs with hip hie hattr
  · refine (setPending_cases P E b (irqOf off) v).imp_right fun ⟨_, h⟩ => ⟨_, ⟨hlt, hvis, ?_, ?_⟩, h⟩
    · exact fun k _ hne => byteAt_ip_ne _ _ (hip ▸ hne)
    · exact .inl rfl
  · refine (setEnable_cases P E b (irqOf off) v).imp_right fun h => ⟨_, ⟨hlt, hvis, ?_, ?_⟩, h⟩
    · exact fun k _ hne => byteAt_ie_ne _ _ (hie ▸ hne)
    · exact .inl rfl
  · refine (setAttr_cases P E b (irqOf off) v).imp_right fun ⟨hle, h⟩ => ⟨_, ⟨hlt, hvis, ?_, ?_⟩, h⟩
    · exact fun k _ hne => byteAt_attr_ne _ _ (hattr ▸ hne)
    · exact .inr ((attrNew_fields P b (irqOf off) v).1.symm ▸ hle)
  · refine (setCtl_cases P E b (irqOf off) v).imp_right fun h => ⟨_, ⟨hlt, hvis, ?_, ?_⟩, h⟩
    · have hsel : selOf off < 4 := Nat.mod_lt _ (by decide)
      exact fun k hk hne => byteAt_ctl_ne _ _ (by omega)
    · exact .inl rfl

section Byte
variable {P : Params} {E : Env} {A : Mode} {b : Block} {off j k : Nat} {v : Byte}

/-- A store changes the registers at its own offset only (R81). -/
theorem ByteStore.byteAt_setIrq {r : IrqRegs} (h : ByteStore P E A b off r) (hoff : 0x1000 ≤ off) (hk : k < 4)
    (hne : off ≠ irqOff j k) : ((b.setIrq (irqOf off) r).irq j).byteAt k = (b.irq j).byteAt k := by
  by_cases hj : j = irqOf off
  · subst hj
    have hsel : k ≠ selOf off := fun hk => hne (hk ▸ (irqOff_irqOf hoff).symm)
    rw [setIrq_irq_same, h.byteAt_ne k hk hsel]
  · rw [setIrq_irq_ne b hj]

/-- A byte step leaves every enable, attribute and control register but its own alone. -/
theorem byteWrite_byteAt (hoff : 0x1000 ≤ off) (hk : k < 4) (hk0 : k ≠ 0) (hne : off ≠ irqOff j k) :
    ((byteWrite P E A b off v).1.irq j).byteAt k = (b.irq j).byteAt k := by
  obtain h | ⟨r, hr, h⟩ := byteWrite_store P E A b off v
  · rw [h]
  · rw [h, arbitrate_byteAt P E _ j hk0, hr.byteAt_setIrq hoff hk hne]

/-- A byte step raises no pending bit but that of its own offset. -/
theorem ip_of_byteWrite_ip (hoff : 0x1000 ≤ off) (hne : off ≠ irqOff j 0)
    (hip : ((byteWrite P E A b off v).1.irq j).ip = true) : (b.irq j).ip = true := by
  obtain h | ⟨r, hr, h⟩ := byteWrite_store P E A b off v
  · rwa [h] at hip
  · rw [h] at hip
    have hset := hr.byteAt_setIrq hoff (by decide) hne
    rw [← flagByte_inj.1 hset]
    exact ip_of_arbitrate_ip hip

/-- A byte step gives an IRQ no new mode above `cpu.priv` (R122). -/
theorem byteWrite_mode (P : Params) (E : Env) (A : Mode) (b : Block) (off j : Nat) (v : Byte) :
    ((byteWrite P E A b off v).1.irq j).attr = (b.irq j).attr ∨
      (attrMode ((byteWrite P E A b off v).1.irq j).attr).toNat ≤ E.priv.rank := by
  obtain h | ⟨r, hr, h⟩ := byteWrite_store P E A b off v
  · exact .inl (by rw [h])
  · rw [h, arbitrate_attr]
    by_cases hj : j = irqOf off
    · subst hj
      rw [setIrq_irq_same]
      exact hr.mode_le
    · rw [setIrq_irq_ne b hj]
      exact .inl rfl

theorem byteWrite_cpuLine (h : b.cpuLine = true) : (byteWrite P E A b off v).1.cpuLine = true := by
  obtain h' | ⟨r, -, h'⟩ := byteWrite_store P E A b off v
  · rwa [h']
  · rw [h']
    exact arbitrate_cpuLine P E _ h

end Byte

/-- What every byte step of an access keeps, the access keeps; each byte step is at one of its offsets. -/
theorem lanesWrite_keeps_within {P : Params} {E : Env} {A : Mode} (motive : Block → Prop) (k : Nat) :
    ∀ (b : Block) (off : Nat) (v : DWord),
      (∀ m o w, off ≤ o → o < off + k → motive m → motive (byteWrite P E A m o w).1) → motive b →
        motive (lanesWrite P E A k b off v).1 := by
  induction k with
  | zero => exact fun _ _ _ _ hb => hb
  | succ k ih =>
    intro b off v step hb
    rw [lanesWrite_succ_fst]
    exact ih _ _ _ (fun m o w hlo hhi => step m o w (by omega) (by omega)) (step b off _ (by omega) (by omega) hb)

section Lanes
variable {P : Params} {E : Env} {A : Mode} {b : Block} {off n j k : Nat} {v : DWord}

/-- A write leaves the enable, attribute and control registers it does not cover alone. -/
theorem lanesWrite_byteAt (hoff : 0x1000 ≤ off) (hk : k < 4) (hk0 : k ≠ 0)
    (hne : ¬ (off ≤ irqOff j k ∧ irqOff j k < off + n)) :
    ((lanesWrite P E A n b off v).1.irq j).byteAt k = (b.irq j).byteAt k := by
  refine lanesWrite_keeps_within (fun m => (m.irq j).byteAt k = (b.irq j).byteAt k) n b off v ?_ rfl
  intro m o w hlo hhi hm
  rw [byteWrite_byteAt (hoff.trans hlo) hk hk0 (fun ho => hne ⟨ho ▸ hlo, ho ▸ hhi⟩), hm]

/-- A write raises no pending bit it does not cover. -/
theorem ip_of_lanesWrite_ip (hoff : 0x1000 ≤ off) (hne : ¬ (off ≤ irqOff j 0 ∧ irqOff j 0 < off + n))
    (hip : ((lanesWrite P E A n b off v).1.irq j).ip = true) : (b.irq j).ip = true := by
  refine lanesWrite_keeps_within (fun m => (m.irq j).ip = true → (b.irq j).ip = true) n b off v ?_ id hip
  intro m o w hlo hhi hm hset
  exact hm (ip_of_byteWrite_ip (hoff.trans hlo) (fun ho => hne ⟨ho ▸ hlo, ho ▸ hhi⟩) hset)

/-- A write of the per-IRQ region leaves `cfg` and the trigger registers alone. -/
theorem lanesWrite_frame : (lanesWrite P E A n b off v).1.cfg = b.cfg ∧
    (lanesWrite P E A n b off v).1.inttrig = b.inttrig := by
  refine lanesWrite_keeps (fun m => m.cfg = b.cfg ∧ m.inttrig = b.inttrig) ?_ n b off v ⟨rfl, rfl⟩
  rintro m o w ⟨hcfg, htrig⟩
  obtain ⟨hcfg', htrig', -⟩ := byteWrite_frame P E A m o w
  exact ⟨hcfg'.trans hcfg, htrig'.trans htrig⟩

end Lanes

/-- The row of a write of the per-IRQ region: the byte row of its offset, or a wide row. -/
theorem perIrqWrite_row {i : Instr} {A : Mode} {off : Nat} {n : Width} {v : DWord}
    (h : accessOf i = some (.write A off n v)) (hoff : 0x1000 ≤ off) :
    (i = byteWriteInstr A off (laneLow v) ∧ n = .b) ∨ i = .wrWide A off n v := by
  cases i with
  | wrCliccfg | wrInttrigLo | wrInttrigHi =>
    cases h
    exact absurd (ctrlOffset_lt _) (Nat.not_lt.2 hoff)
  | wrIp | wrIe | wrAttr | wrCtl =>
    cases h
    rw [byteWriteInstr_irqOff _ _ (by decide), laneLow_byte]
    exact .inl ⟨rfl, rfl⟩
  | wrWide => cases h; exact .inr rfl
  | rdCliccfg | rdInttrigLo | rdInttrigHi | rdIp | rdIe | rdAttr | rdCtl | rdWide | line | arb | ack | create | reset =>
    cases h

/-- The row of a write that covers a byte of the per-IRQ region: the byte row of that byte, or a wide row that covers it. -/
theorem coveringWrite_row {i : Instr} {A : Mode} {off o : Nat} {n : Width} {v : DWord}
    (h : accessOf i = some (.write A off n v)) (hoff : 0x1000 ≤ off) (hlo : off ≤ o) (hhi : o < off + n.bytes) :
    (∃ w, i = byteWriteInstr A o w) ∨ coveredByWide i o := by
  obtain ⟨hi, rfl⟩ | hi := perIrqWrite_row h hoff
  · obtain rfl : o = off := Nat.le_antisymm (Nat.le_of_lt_succ hhi) hlo
    exact .inl ⟨_, hi⟩
  · exact .inr ⟨A, off, n, v, hi, hlo, hhi⟩

/-- The row of a write of a control register is that register's. -/
theorem ctrlWrite_row {i : Instr} {A : Mode} {r : CtrlReg} {v : DWord} (hwf : WellFormed i = true)
    (h : accessOf i = some (.write A r.offset .w v)) : ∃ w, i = ctrlWriteInstr A w r := by
  have hinj {q : CtrlReg} (hq : q.offset = r.offset) : q = r :=
    Option.some.inj ((ctrlLookup_offset q).symm.trans (hq ▸ ctrlLookup_offset r))
  cases i with
  | wrCliccfg B w | wrInttrigLo B x w | wrInttrigHi B x w =>
    simp only [accessOf, Option.some.injEq, Unlisted.write.injEq] at h
    obtain ⟨rfl, hoff, -, -⟩ := h
    exact ⟨w, congrArg (ctrlWriteInstr B w) (hinj hoff)⟩
  | wrWide B off n w =>
    simp only [accessOf, Option.some.injEq, Unlisted.write.injEq] at h
    obtain ⟨rfl, rfl, rfl, rfl⟩ := h
    rw [WellFormed, Bool.and_eq_true] at hwf
    exact absurd (ctrlOffset_lt r) (Nat.not_lt.2 (wideOk_iff.1 hwf.1).2.1)
  | wrIp | wrIe | wrAttr | wrCtl => simp [accessOf] at h
  | rdCliccfg | rdInttrigLo | rdInttrigHi | rdIp | rdIe | rdAttr | rdCtl | rdWide | line | arb | ack | create | reset =>
    cases h

end Sys2Proof.Machine
end

section
/-! SUPPORT. Whole-machine rules: which operation changes which register (R21, R32, R122, R163). -/

namespace Sys2Proof.Machine

/-- The store of a pending bit leaves the other registers alone (R22). -/
theorem setIp_byteAt (b : Block) (i j : Nat) (f : Bool) {k : Nat} (hk : k ≠ 0) :
    ((b.setIp i f).irq j).byteAt k = (b.irq j).byteAt k := by
  rw [setIp_irq]
  split_ifs with hj
  · rw [hj, byteAt_ip_ne _ _ hk]
  · rfl

section Effects
variable {s : State} {i : Instr} {b : Block} (h : Effect s i b)
include h

/-- An enable, attribute or control register changes only by a write that covers its byte. -/
theorem Effect.byteAt_cases {k : Nat} (hk : k < 4) (hk0 : k ≠ 0) (j : Nat) :
    (b.irq j).byteAt k = (s.blk.irq j).byteAt k ∨ (∃ A w, i = byteWriteInstr A (irqOff j k) w) ∨
      coveredByWide i (irqOff j k) := by
  cases h with
  | unchanged => exact .inl rfl
  | @write A off n v _ hacc hw =>
    cases hw with
    | dropped | cliccfg | inttrigLo | inttrigHi => exact .inl rfl
    | lanes hoff =>
      by_cases hcov : off ≤ irqOff j k ∧ irqOff j k < off + n.bytes
      · exact .inr ((coveringWrite_row hacc hoff hcov.1 hcov.2).imp_left fun ⟨w, hw⟩ => ⟨A, w, hw⟩)
      · exact .inl (lanesWrite_byteAt hoff hk hk0 hcov)
  | line m L v => exact .inl ((arbitrate_byteAt _ _ _ j hk0).trans (setIp_byteAt _ m j v hk0))
  | arb => exact .inl (arbitrate_byteAt _ _ _ j hk0)
  | ack => exact .inl rfl

/-- A pending bit rises only by a write that covers its byte, or by its line. -/
theorem Effect.ip_cases {j : Nat} (hip : (b.irq j).ip = true) :
    (s.blk.irq j).ip = true ∨ (∃ A w, i = byteWriteInstr A (irqOff j 0) w) ∨ coveredByWide i (irqOff j 0) ∨
      ∃ L, i = .line j L := by
  cases h with
  | unchanged => exact .inl hip
  | @write A off n v _ hacc hw =>
    cases hw with
    | dropped | cliccfg | inttrigLo | inttrigHi => exact .inl hip
    | lanes hoff =>
      by_cases hcov : off ≤ irqOff j 0 ∧ irqOff j 0 < off + n.bytes
      · exact .inr ((coveringWrite_row hacc hoff hcov.1 hcov.2).imp (fun ⟨w, hw⟩ => ⟨A, w, hw⟩) .inl)
      · exact .inl (ip_of_lanesWrite_ip hoff hcov hip)
  | line m L v hi =>
    by_cases hj : j = m
    · exact .inr (.inr (.inr ⟨L, hj ▸ hi⟩))
    · have hset := ip_of_arbitrate_ip hip
      rw [setIp_irq, if_neg hj] at hset
      exact .inl hset
  | arb => exact .inl (ip_of_arbitrate_ip hip)
  | ack => exact .inl hip

/-- `cliccfg` changes only by a write of its own. -/
theorem Effect.row_of_cfg_ne (hwf : WellFormed i = true) (hne : b.cfg ≠ s.blk.cfg) : ∃ A v, i = .wrCliccfg A v := by
  cases h with
  | unchanged => exact absurd rfl hne
  | @write A off n v _ hacc hw =>
    cases hw with
    | dropped | inttrigLo | inttrigHi => exact absurd rfl hne
    | cliccfg hoff hn =>
      obtain ⟨w, hi⟩ := ctrlWrite_row hwf (hoff ▸ hn ▸ hacc)
      exact ⟨A, w, hi⟩
    | lanes => exact absurd lanesWrite_frame.1 hne
  | line m L v => exact absurd (arbitrate_cfg _ _ _) hne
  | arb => exact absurd (arbitrate_cfg _ _ _) hne
  | ack => exact absurd rfl hne

/-- The trigger registers change only by writes of their own. -/
theorem Effect.row_of_inttrig_ne (hwf : WellFormed i = true) (hne : b.inttrig ≠ s.blk.inttrig) :
    (∃ A x v, i = .wrInttrigLo A x v) ∨ ∃ A x v, i = .wrInttrigHi A x v := by
  cases h with
  | unchanged => exact absurd rfl hne
  | @write A off n v _ hacc hw =>
    cases hw with
    | dropped | cliccfg => exact absurd rfl hne
    | inttrigLo x hoff hn =>
      obtain ⟨w, hi⟩ := ctrlWrite_row hwf (hoff ▸ hn ▸ hacc)
      exact .inl ⟨A, x, w, hi⟩
    | inttrigHi x hoff hn =>
      obtain ⟨w, hi⟩ := ctrlWrite_row hwf (hoff ▸ hn ▸ hacc)
      exact .inr ⟨A, x, w, hi⟩
    | lanes => exact absurd lanesWrite_frame.2 hne
  | line m L v => exact absurd (arbitrate_inttrig _ _ _) hne
  | arb => exact absurd (arbitrate_inttrig _ _ _) hne
  | ack => exact absurd rfl hne

/-- An attribute byte keeps its value or holds a mode that is not above `cpu.priv` (R122). -/
theorem Effect.attr_or_mode_le (j : Nat) :
    (b.irq j).attr = (s.blk.irq j).attr ∨ (attrMode (b.irq j).attr).toNat ≤ s.env.priv.rank := by
  cases h with
  | unchanged => exact .inl rfl
  | @write A off n v _ hacc hw =>
    cases hw with
    | dropped | cliccfg | inttrigLo | inttrigHi => exact .inl rfl
    | lanes =>
      refine lanesWrite_keeps (fun m => (m.irq j).attr = (s.blk.irq j).attr ∨
        (attrMode (m.irq j).attr).toNat ≤ s.env.priv.rank) (fun m o w hm => ?_) _ _ _ _ (.inl rfl)
      obtain hkeep | hnew := byteWrite_mode s.params s.env A m o j w
      · rwa [hkeep]
      · exact .inr hnew
  | line m L v =>
    refine .inl ((arbitrate_attr _ _ _ j).trans ?_)
    exact setIp_byteAt s.blk m j v (k := 2) (by decide)
  | arb => exact .inl (arbitrate_attr _ _ _ j)
  | ack => exact .inl rfl

/-- Only the acceptance lowers the line (R32, D5). -/
theorem Effect.cpuLine_of_ne_ack (hi : i ≠ .ack) (hline : s.blk.cpuLine = true) : b.cpuLine = true := by
  cases h with
  | unchanged => exact hline
  | write _ hw =>
    cases hw with
    | dropped | cliccfg | inttrigLo | inttrigHi => exact hline
    | lanes => exact lanesWrite_keeps (·.cpuLine = true) (fun _ _ _ hm => byteWrite_cpuLine hm) _ _ _ _ hline
  | line m L v => exact arbitrate_cpuLine _ _ _ hline
  | arb => exact arbitrate_cpuLine _ _ _ hline
  | ack hack => exact absurd hack hi

end Effects

/-- Settles O56: each register's rule is that of the effects of an instruction. -/
theorem registersChangeOnlyByTheirOwnWrites : Obligations.RegistersChangeOnlyByTheirOwnWrites := by
  unfold Obligations.RegistersChangeOnlyByTheirOwnWrites
  intro s t i hwf hc hr hexec
  obtain ⟨ht, heff⟩ := exec_effect hc hr hexec
  have hown (k : Nat) (hk : k < 4) (hk0 : k ≠ 0) (j : Nat) (hne : (t.blk.irq j).byteAt k ≠ (s.blk.irq j).byteAt k) :=
    (heff.byteAt_cases hk hk0 j).resolve_left hne
  have hrow {j k : Nat} (hk : k < 4) {A : Mode} {w : Byte} (hi : i = byteWriteInstr A (irqOff j k) w) :=
    hi.trans (byteWriteInstr_irqOff A j hk w)
  refine ⟨fun j hlow hhigh => ?_, fun j hne => ?_, fun j hne => ?_, fun j hne => ?_,
    heff.row_of_cfg_ne hwf, heff.row_of_inttrig_ne hwf, ?_⟩
  · exact ((heff.ip_cases hhigh).resolve_left (by simp [hlow])).imp_left fun ⟨A, w, hi⟩ => ⟨A, w, hrow (by decide) hi⟩
  · exact (hown 1 (by decide) (by decide) j (mt flagByte_inj.1 hne)).imp_left
      fun ⟨A, w, hi⟩ => ⟨A, w, hrow (by decide) hi⟩
  · exact (hown 2 (by decide) (by decide) j hne).imp_left fun ⟨A, w, hi⟩ => ⟨A, w, hrow (by decide) hi⟩
  · exact (hown 3 (by decide) (by decide) j hne).imp_left fun ⟨A, w, hi⟩ => ⟨A, w, hrow (by decide) hi⟩
  · rw [ht]
    exact ⟨rfl, rfl, rfl, rfl⟩

/-- Settles O53: a stored mode that changes is a written one, which is not above `cpu.priv`. -/
theorem noWriteRaisesAModeAboveThePrivilege : Obligations.NoWriteRaisesAModeAboveThePrivilege := by
  unfold Obligations.NoWriteRaisesAModeAboveThePrivilege
  intro s t i j hc hr hexec hne
  exact ((exec_effect hc hr hexec).2.attr_or_mode_le j).resolve_left fun heq => hne (by rw [heq])

/-- Settles O54: of the instructions but construction and reset only the acceptance lowers a raised line. -/
theorem onlyAcceptAndResetLowerTheLine : Obligations.OnlyAcceptAndResetLowerTheLine := by
  unfold Obligations.OnlyAcceptAndResetLowerTheLine
  intro s t i hexec hhigh hlow
  by_contra hother
  obtain ⟨hack, hr, hc⟩ := not_or.1 hother |>.imp_right not_or.1
  have hline := (exec_effect (not_exists.1 hc) hr hexec).2.cpuLine_of_ne_ack hack hhigh
  rw [hlow] at hline
  cases hline

/-- The registers of an IRQ are what they were, but for a pending bit that may have been cleared (R163, R213). -/
structure RegsKept (r r' : IrqRegs) : Prop where
  byteAt : ∀ k ≠ 0, r'.byteAt k = r.byteAt k
  ip : r'.ip = true → r.ip = true

theorem RegsKept.refl (r : IrqRegs) : RegsKept r r := ⟨fun _ _ => rfl, id⟩

theorem RegsKept.trans {r r' r'' : IrqRegs} (h : RegsKept r r') (h' : RegsKept r' r'') : RegsKept r r'' :=
  ⟨fun k hk => (h'.byteAt k hk).trans (h.byteAt k hk), h.ip ∘ h'.ip⟩

/-- An arbitration keeps the registers of every IRQ but for a pending bit it clears (R213). -/
theorem regsKept_arbitrate (P : Params) (E : Env) (b : Block) (j : Nat) :
    RegsKept (b.irq j) ((arbitrate P E b).irq j) :=
  ⟨fun _ hk => arbitrate_byteAt P E b j hk, ip_of_arbitrate_ip⟩

/-- A byte step through a view keeps an IRQ hidden from it. -/
theorem byteWrite_regsKept {P : Params} {E : Env} {A : Mode} {b : Block} {j : Nat}
    (hhid : A.rank < (effMode P b j).rank) (off : Nat) (v : Byte) :
    RegsKept (b.irq j) ((byteWrite P E A b off v).1.irq j) := by
  obtain h | ⟨r, hr, h⟩ := byteWrite_store P E A b off v
  · rw [h]
    exact RegsKept.refl _
  · have hj : j ≠ irqOf off := by
      rintro rfl
      exact absurd hr.isVisible (Nat.not_le.2 hhid)
    rw [h, ← setIrq_irq_ne b hj r]
    exact regsKept_arbitrate P E _ j

/-- Each byte step finds the IRQ as hidden as the access found it, so the access keeps it (R163). -/
theorem lanesWrite_regsKept {P : Params} {E : Env} {A : Mode} {b : Block} {j : Nat}
    (hhid : A.rank < (effMode P b j).rank) (n off : Nat) (v : DWord) :
    RegsKept (b.irq j) ((lanesWrite P E A n b off v).1.irq j) := by
  refine (lanesWrite_keeps (fun m => m.cfg = b.cfg ∧ RegsKept (b.irq j) (m.irq j)) ?_ n b off v
    ⟨rfl, RegsKept.refl _⟩).2
  rintro m o w ⟨hcfg, hregs⟩
  have hattr : (m.irq j).attr = (b.irq j).attr := hregs.byteAt 2 (by decide)
  have heff : effMode P m j = effMode P b j := by rw [effMode, effMode, hcfg, hattr]
  exact ⟨(byteWrite_frame P E A m o w).1.trans hcfg, hregs.trans (byteWrite_regsKept (heff ▸ hhid) o w)⟩

/-- Settles O52: a write of a control register touches no IRQ, and one of the per-IRQ region keeps those it finds hidden. -/
theorem writesLeaveHiddenIrqsAlone : Obligations.WritesLeaveHiddenIrqsAlone := by
  unfold Obligations.WritesLeaveHiddenIrqsAlone
  intro A s t i j hview hexec hhid
  have hkept : RegsKept (s.blk.irq j) (t.blk.irq j) := by
    obtain ⟨off, n, hbus⟩ | ⟨off, n, v, hbus⟩ := exec_of_viewOf hview
    · obtain ⟨-, -, v, log, -, rfl⟩ := busRead_next ((hbus s).symm.trans hexec)
      exact RegsKept.refl _
    · obtain ⟨-, -, b, log, hwrite, rfl⟩ := busWrite_next ((hbus s).symm.trans hexec)
      cases mmioWrite_effect hwrite with
      | dropped | cliccfg | inttrigLo | inttrigHi => exact RegsKept.refl _
      | lanes => exact lanesWrite_regsKept hhid n.bytes off v
  exact ⟨flagByte_inj.1 (hkept.byteAt 1 (by decide)), hkept.byteAt 2 (by decide), hkept.byteAt 3 (by decide), hkept.ip⟩

end Sys2Proof.Machine
end

section
/-! SUPPORT. What a change of `exccode` tells: the value of an enabled IRQ, by the registers it had when it was posted
(R31, R202, R214). -/

namespace Sys2Proof.Machine

/-- The value a post writes for an IRQ with the registers `r` under `cliccfg` (R109, R110, R214). -/
def postedCode (P : Params) (c : Cfg) (j : Nat) (r : IrqRegs) : BitVec 22 :=
  encodeExccode j (effectiveMode P c.nmbits (attrMode r.attr))
    (level r.ctl (nlbitsOf c (effectiveMode P c.nmbits (attrMode r.attr))) P.ctlbits)

theorem postedCode_irq (P : Params) (b : Block) (j : Nat) :
    postedCode P b.cfg j (b.irq j) = encodeExccode j (effMode P b j) (levelOf P b j) := rfl

theorem postedCode_setIrq (P : Params) (b : Block) (j : Nat) (r : IrqRegs) :
    encodeExccode j (effMode P (b.setIrq j r) j) (levelOf P (b.setIrq j r) j) = postedCode P b.cfg j r := by
  rw [← postedCode_irq, setIrq_irq_same, setIrq_cfg]

/-- The value posted depends on the attribute and the control byte only. -/
theorem postedCode_congr {P : Params} {c : Cfg} {j : Nat} {r r' : IrqRegs} (hattr : r'.attr = r.attr)
    (hctl : r'.ctl = r.ctl) : postedCode P c j r' = postedCode P c j r := by
  rw [postedCode, postedCode, hattr, hctl]

/-- The line is up and `exccode` is the value of the existing, enabled IRQ `j` with the registers `r`. -/
structure Posted (P : Params) (b : Block) (j : Nat) (r : IrqRegs) : Prop where
  cpuLine : b.cpuLine = true
  irq_lt : j < P.numSources
  ie : r.ie = true
  exccode : b.exccode = postedCode P b.cfg j r

/-- An arbitration that changes `exccode` has posted an IRQ, with the registers it has after it too (R214). -/
theorem arbitrate_posted {P : Params} {E : Env} {b : Block} (hw : irqsWf P.numSources b.irqs)
    (h : (arbitrate P E b).exccode ≠ b.exccode) :
    ∃ j, Posted P (arbitrate P E b) j ((arbitrate P E b).irq j) := by
  have hie := arbitrate_ie P E b
  have hattr := arbitrate_attr P E b
  have hctl := arbitrate_ctl P E b
  obtain ⟨-, harb⟩ | ⟨e, hscan, harb⟩ := arbitrate_cases P E b
  · exact absurd (by rw [harb]) h
  · obtain ⟨l₁, l₂, hl, -⟩ := scan_some hscan
    have hmem : e ∈ activeSet P b := hl ▸ List.mem_append_right l₁ List.mem_cons_self
    refine ⟨e.irq, ?_, irq_lt_of_mem_activeSet hw hmem, ?_, ?_⟩
    · rw [harb, post_cpuLine]
    · rw [hie]
      exact ((mem_activeSet hw.1).1 hmem).1
    · rw [postedCode_congr (hattr e.irq) (hctl e.irq), arbitrate_cfg, postedCode_irq, harb, post_exccode,
        eq_of_mem_activeSet hmem, entryMode_intcfgOf, entryLevel_intcfgOf]

/-- A byte step that changes `exccode` has posted an IRQ, with the registers it has after it too. -/
theorem byteWrite_posted {P : Params} {E : Env} {A : Mode} {b : Block} {off : Nat} {v : Byte}
    (hw : irqsWf P.numSources b.irqs) (h : (byteWrite P E A b off v).1.exccode ≠ b.exccode) :
    ∃ j, Posted P (byteWrite P E A b off v).1 j ((byteWrite P E A b off v).1.irq j) := by
  obtain h' | ⟨r, hr, h'⟩ := byteWrite_store P E A b off v
  · exact absurd (by rw [h']) h
  · rw [h'] at h ⊢
    exact arbitrate_posted (irqsWf_set hw hr.irq_lt r) h

/-- A write of the per-IRQ region that changes `exccode` has posted an IRQ. Each of its registers had, when it was posted,
the value it has after the write, or the value from before it when a later byte of the write covers it (R202). -/
theorem lanesWrite_posted {P : Params} {E : Env} {A : Mode} (n : Nat) :
    ∀ {b : Block} {off : Nat} {v : DWord}, blockInv P b → 0x1000 ≤ off →
      (lanesWrite P E A n b off v).1.exccode ≠ b.exccode →
      ∃ j r, Posted P (lanesWrite P E A n b off v).1 j r ∧ ∀ k < 4, k ≠ 0 →
        r.byteAt k = ((lanesWrite P E A n b off v).1.irq j).byteAt k ∨
          (r.byteAt k = (b.irq j).byteAt k ∧ off < irqOff j k ∧ irqOff j k < off + n) := by
  induction n with
  | zero => exact fun _ _ h => absurd rfl h
  | succ n ih =>
    intro b off v hinv hoff h
    rw [lanesWrite_succ_fst] at h ⊢
    have hstep (j k : Nat) (hk : k < 4) (hk0 : k ≠ 0) (hlt : off < irqOff j k) :
        ((byteWrite P E A b off (laneLow v)).1.irq j).byteAt k = (b.irq j).byteAt k :=
      byteWrite_byteAt hoff hk hk0 hlt.ne
    have hinv' := blockInv_byteWrite (E := E) (A := A) hinv off (laneLow v)
    have hpost := byteWrite_posted (E := E) (A := A) (off := off) (v := laneLow v) hinv.1
    generalize (byteWrite P E A b off (laneLow v)).1 = m at *
    by_cases hlater : (lanesWrite P E A n m (off + 1) (laneRest v)).1.exccode = m.exccode
    · obtain ⟨j, hj⟩ := hpost (hlater ▸ h)
      refine ⟨j, m.irq j, ⟨?_, hj.irq_lt, hj.ie, ?_⟩, fun k hk hk0 => ?_⟩
      · exact lanesWrite_keeps (·.cpuLine = true) (fun _ _ _ hm => byteWrite_cpuLine hm) _ _ _ _ hj.cpuLine
      · rw [hlater, hj.exccode, lanesWrite_frame.1]
      · by_cases hcov : off + 1 ≤ irqOff j k ∧ irqOff j k < off + 1 + n
        · exact .inr ⟨hstep j k hk hk0 (by omega), by omega, by omega⟩
        · exact .inl (lanesWrite_byteAt (by omega) hk hk0 hcov).symm
    · obtain ⟨j, r, hr, hregs⟩ := ih hinv' (by omega) hlater
      refine ⟨j, r, hr, fun k hk hk0 => (hregs k hk hk0).imp_right fun ⟨hold, hlo, hhi⟩ => ?_⟩
      exact ⟨hold.trans (hstep j k hk hk0 (by omega)), by omega, by omega⟩

/-- An instruction that changes `exccode` has posted an IRQ. Each of its registers had, when it was posted, the value it has
after the instruction, or the value from before it when the instruction is a wide write that covers it (R202, R214). -/
theorem Effect.posted_of_exccode_ne {s : State} {i : Instr} {b : Block} (h : Effect s i b) (hinv : blockInv s.params s.blk)
    (hne : b.exccode ≠ s.blk.exccode) :
    ∃ j r, Posted s.params b j r ∧ ∀ k < 4, k ≠ 0 → r.byteAt k = (b.irq j).byteAt k ∨
      (r.byteAt k = (s.blk.irq j).byteAt k ∧ coveredByWide i (irqOff j k)) := by
  cases h with
  | unchanged => exact absurd rfl hne
  | @write A off n v _ hacc hw =>
    cases hw with
    | dropped | cliccfg | inttrigLo | inttrigHi => exact absurd rfl hne
    | lanes hoff =>
      obtain ⟨j, r, hr, hregs⟩ := lanesWrite_posted n.bytes hinv hoff hne
      refine ⟨j, r, hr, fun k hk hk0 => (hregs k hk hk0).imp_right fun ⟨hold, hlo, hhi⟩ => ⟨hold, ?_⟩⟩
      obtain ⟨-, rfl⟩ | hi := perIrqWrite_row hacc hoff
      · exact absurd hhi (Nat.not_lt.2 hlo)
      · exact ⟨A, off, n, v, hi, hlo.le, hhi⟩
  | line m L v _ hm =>
    obtain ⟨j, hj⟩ := arbitrate_posted (blockInv_setIp hinv hm v).1 hne
    exact ⟨j, _, hj, fun _ _ _ => .inl rfl⟩
  | arb =>
    obtain ⟨j, hj⟩ := arbitrate_posted hinv.1 hne
    exact ⟨j, _, hj, fun _ _ _ => .inl rfl⟩
  | ack => exact absurd rfl hne

/-- Settles O55: the value is that of the IRQ posted, with the registers it had then. -/
theorem exccodeChangesOnlyWithAPost : Obligations.ExccodeChangesOnlyWithAPost := by
  unfold Obligations.ExccodeChangesOnlyWithAPost
  rintro s t i ⟨-, hinv, -⟩ hc hr hexec hne
  obtain ⟨ht, heff⟩ := exec_effect hc hr hexec
  obtain ⟨j, r, hposted, hregs⟩ := heff.posted_of_exccode_ne hinv hne
  have hparams : t.params = s.params := by rw [ht]; rfl
  refine ⟨hposted.cpuLine, j, r, hposted.irq_lt, hposted.ie, ?_, ?_, hregs 2 (by decide) (by decide),
    hregs 3 (by decide) (by decide)⟩
  · rw [hparams, postedCode_setIrq, hposted.exccode]
  · have hie := hposted.ie
    obtain hnow | ⟨hold, hcov⟩ := hregs 1 (by decide) (by decide)
    · exact .inl (flagByte_inj.1 hnow ▸ hie)
    · exact .inr ⟨flagByte_inj.1 hold ▸ hie, hcov⟩

end Sys2Proof.Machine
end

section
/-! SUPPORT. The four parameters that CREATE stores and no rule reads (R238, D24): with other values of them every operation
does the same. -/

namespace Sys2Proof.Machine

/-- The parameter record with other values of the four carried parameters. -/
def carry (P : Params) (hart : Nat) (ver : Version) (shv jmp : Bool) : Params :=
  { P with hartId := hart, version := ver, shvEnabled := shv, jumpTable := jmp }

/-- An outcome whose next state carries other values of the four parameters. -/
def carryOutcome (hart : Nat) (ver : Version) (shv jmp : Bool) :
    Host.Outcome State Fault Refusal → Host.Outcome State Fault Refusal
  | .next t => .next (t.carrying hart ver shv jmp)
  | .fault f => .fault f
  | .refused r => .refused r

section
variable (P : Params) (E : Env) (A : Mode) (b : Block) (hart : Nat) (ver : Version) (shv jmp : Bool)

theorem scan_carry (l : List Entry) : scan (carry P hart ver shv jmp) E b l = scan P E b l := by
  induction l with
  | nil => rfl
  | cons x rest ih => rw [scan, scan, ih]; rfl

theorem arbitrate_carry : arbitrate (carry P hart ver shv jmp) E b = arbitrate P E b := by
  rw [arbitrate, scan_carry]
  rfl

theorem byteWrite_carry (off : Nat) (v : Byte) :
    byteWrite (carry P hart ver shv jmp) E A b off v = byteWrite P E A b off v := by
  rw [byteWrite, setPending, setEnable, setAttr, setCtl]
  simp only [arbitrate_carry]
  rfl

theorem lanesWrite_carry (k off : Nat) (v : DWord) :
    lanesWrite (carry P hart ver shv jmp) E A k b off v = lanesWrite P E A k b off v := by
  induction k generalizing b off v with
  | zero => rfl
  | succ k ih => rw [lanesWrite, lanesWrite, byteWrite_carry, ih]

theorem lanesRead_carry (k off : Nat) :
    lanesRead (carry P hart ver shv jmp) b A k off = lanesRead P b A k off := by
  induction k generalizing off with
  | zero => rfl
  | succ k ih => rw [lanesRead, lanesRead, ih]; rfl

theorem mmioRead_carry (off : Nat) (n : Width) :
    mmioRead (carry P hart ver shv jmp) E b A off n = mmioRead P E b A off n := by
  rw [mmioRead, lanesRead_carry]
  rfl

theorem mmioWrite_carry (off : Nat) (n : Width) (v : DWord) :
    mmioWrite (carry P hart ver shv jmp) E b A off n v = mmioWrite P E b A off n v := by
  rw [mmioWrite, lanesWrite_carry]
  rfl

end

section
variable (s : State) (hart : Nat) (ver : Version) (shv jmp : Bool)

theorem carryOutcome_ite {p : Prop} [Decidable p] (x y : Host.Outcome State Fault Refusal) :
    carryOutcome hart ver shv jmp (if p then x else y) =
      if p then carryOutcome hart ver shv jmp x else carryOutcome hart ver shv jmp y := apply_ite _ _ _ _

theorem busRead_carrying (A : Mode) (off : Nat) (n : Width) :
    busRead A off n (s.carrying hart ver shv jmp) = carryOutcome hart ver shv jmp (busRead A off n s) := by
  have hread : mmioRead (s.carrying hart ver shv jmp).params (s.carrying hart ver shv jmp).env
      (s.carrying hart ver shv jmp).blk A off n = mmioRead s.params s.env s.blk A off n :=
    mmioRead_carry s.params s.env A s.blk hart ver shv jmp off n
  rw [busRead, busRead, hread, carryOutcome_ite, carryOutcome_ite]
  cases mmioRead s.params s.env s.blk A off n <;> rfl

theorem busWrite_carrying (A : Mode) (off : Nat) (n : Width) (v : DWord) :
    busWrite A off n v (s.carrying hart ver shv jmp) = carryOutcome hart ver shv jmp (busWrite A off n v s) := by
  have hwrite : mmioWrite (s.carrying hart ver shv jmp).params (s.carrying hart ver shv jmp).env
      (s.carrying hart ver shv jmp).blk A off n v = mmioWrite s.params s.env s.blk A off n v :=
    mmioWrite_carry s.params s.env A s.blk hart ver shv jmp off n v
  rw [busWrite, busWrite, hwrite, carryOutcome_ite, carryOutcome_ite]
  cases mmioWrite s.params s.env s.blk A off n v <;> rfl

theorem arbitrate_carrying (b : Block) :
    arbitrate (s.carrying hart ver shv jmp).params (s.carrying hart ver shv jmp).env b = arbitrate s.params s.env b :=
  arbitrate_carry s.params s.env b hart ver shv jmp

theorem execArb_carrying :
    execArb (s.carrying hart ver shv jmp) = carryOutcome hart ver shv jmp (execArb s) := by
  rw [execArb, execArb, arbitrate_carrying, carryOutcome_ite]
  rfl

theorem execLine_carrying (i : Nat) (L : Bool) :
    execLine i L (s.carrying hart ver shv jmp) = carryOutcome hart ver shv jmp (execLine i L s) := by
  have heffect : lineEffect (s.carrying hart ver shv jmp).blk i L = lineEffect s.blk i L := rfl
  rw [execLine, execLine, heffect, carryOutcome_ite]
  cases lineEffect s.blk i L with
  | none => rfl
  | some v =>
    dsimp only
    rw [arbitrate_carrying, carryOutcome_ite]
    rfl

/-- Every instruction but construction gives the same outcome, carrying the values along (R238). -/
theorem exec_carrying {i : Instr} (hc : ∀ a, i ≠ .create a) :
    exec i (s.carrying hart ver shv jmp) = carryOutcome hart ver shv jmp (exec i s) := by
  obtain ⟨A, off, n, -, -, -, hexec⟩ | ⟨A, off, n, v, -, -, -, hexec⟩ | ⟨-, -, hi⟩ := exec_cases i
  · rw [hexec, hexec, busRead_carrying]
  · rw [hexec, hexec, busWrite_carrying]
  · rcases hi with ⟨k, L, rfl⟩ | rfl | rfl | ⟨a, rfl⟩ | rfl
    · exact execLine_carrying s hart ver shv jmp k L
    · exact execArb_carrying s hart ver shv jmp
    · rfl
    · exact absurd rfl (hc a)
    · rfl

end

/-- Settles O59: no operation looks at the four parameters, and construction overwrites them. -/
theorem carriedParametersAreReadByNothing : Obligations.CarriedParametersAreReadByNothing := by
  unfold Obligations.CarriedParametersAreReadByNothing
  intro s hart ver shv jmp
  constructor
  · intro i hc
    rw [exec_carrying s hart ver shv jmp hc]
    cases exec i s <;> rfl
  · exact fun a => rfl

end Sys2Proof.Machine
end
